-- ==== Sys2Proof/Word.lean ====
section
/-! DEFINITION. The machine's words: every register of the block is 64 bits wide (spec/00_scope.md R13, R15). -/

namespace Sys2Proof

/-- A 64-bit register value (R15: "A register value is a 64-bit bit vector"). -/
abbrev Word := BitVec 64

/-- One byte, the unit a PCM element's two halves are stored in (R82). -/
abbrev Byte := BitVec 8

end Sys2Proof
end

