-- ==== Sys2Proof/Config.lean ====
section
/-! DEFINITION. The build-time parameters of one block (spec/00_scope.md R8 to R14, spec/20_memory.md R87) as plain
data, the fixed constants, the spec's own test configuration TC, and the one free value of the model. -/

namespace Sys2Proof

/-- `TIME_UNIT = 2^32`: one output sample in fixed-point time (R8). -/
abbrev timeUnit : Nat := 2 ^ 32

/-- `MAX_FACTOR = TIME_UNIT`: at most one output sample per clock tick (R9). -/
abbrev maxFactor : Nat := 2 ^ 32

/-- `AMP_FRAC = 15` fractional amplitude bits (R10). -/
abbrev ampFrac : Nat := 15

/-- `KERNEL_UNITY = 2^AMP_FRAC = 32768`: the tap sum of a kernel of unity gain (R10). -/
abbrev kernelUnity : Int := 32768

/-- The register window decodes a 24-bit byte offset: `REG_ADDR_BITS = 24` (R13). -/
abbrev windowBytes : Nat := 2 ^ 24

/-- The five supported output sample rates, in the order of `RATE_IDX` 0 to 4 (R12, R143). -/
inductive RateIdx where
  | r48000
  | r96000
  | r192000
  | r384000
  | r768000
  deriving DecidableEq, Repr

/-- A kernel: its signed coefficients `c[0..T-1]`, tap 0 first (R14, R141). -/
abbrev Kernel := List Int

/-- One entry `KC(rate, cutoff)` of the partial cutoff map (R14, R140). -/
structure CutoffKernel where
  rate   : RateIdx
  cutoff : BitVec 32
  kernel : Kernel
  deriving DecidableEq, Repr

/-- The parameter `KERNEL_BANK`: a rate kernel for every supported rate and the partial map `KC` (R14, R140). -/
structure KernelBank where
  kr48000  : Kernel
  kr96000  : Kernel
  kr192000 : Kernel
  kr384000 : Kernel
  kr768000 : Kernel
  kc       : List CutoffKernel
  deriving DecidableEq, Repr

/-- The parameters R11 leaves OPEN ("Build-time parameters the model takes as arguments"), and the two platform
parameters of R87. They are fixed when a block is built, and no step changes them. -/
structure Config where
  /-- `SIZE`: capacity in output samples (R11). -/
  size      : Nat
  /-- `MAX_TAPS`: the largest tap count of any kernel of the bank (R11). -/
  maxTaps   : Nat
  /-- `HEADROOM`: extra slots beyond the nominal frame end (R11). -/
  headroom  : Nat
  /-- `FREQ_AWARE`: the frequency-aware variant is present (R3, R11). -/
  freqAware : Bool
  /-- `LEAK_SHIFT`: leak of the read-time integrator, 0 = none (R11, R204). -/
  leakShift : Nat
  /-- `KERNEL_BANK` (R14). -/
  bank      : KernelBank
  /-- `BLRS_BASE`: the host bus address of register offset 0 (R87). -/
  blrsBase  : Nat
  /-- `PCM_BASE`: the host bus address of PCM element 0 (R87). -/
  pcmBase   : Nat
  deriving DecidableEq, Repr

/-- `DEPTH = SIZE + TAIL_MARGIN`, `TAIL_MARGIN = MAX_TAPS + HEADROOM`: the number of accumulator slots (R11). -/
def Config.depth (cfg : Config) : Nat := cfg.size + (cfg.maxTaps + cfg.headroom)

/-- The spec's test bank (spec/95_test_vectors.md section 0). -/
def KernelBank.tc : KernelBank where
  kr48000  := [4096, 8192, 8192, 8192, 4096]
  kr96000  := [8192, 16384, 8192]
  kr192000 := [16384, 16384]
  kr384000 := [16384, 16384]
  kr768000 := [16384, 16384]
  kc       := [{ rate := .r48000, cutoff := 15000, kernel := [2048, 4096, 6144, 8192, 6144, 4096, 2048] }]

/-- TC, the one concrete configuration the spec writes out (spec/95_test_vectors.md section 0). DESIGN CHOICE, unsafe
(log 1): it is what State.reset carries, since the spec leaves these parameters OPEN; the two bases are 0 (log 1).
Every other definition and every statement is over an arbitrary Config. -/
def Config.tc : Config where
  size      := 65536
  maxTaps   := 32
  headroom  := 32
  freqAware := true
  leakShift := 0
  bank      := KernelBank.tc
  blrsBase  := 0
  pcmBase   := 0

/-- FREE VALUE (log 4): the byte the host left at a byte address of its PCM array before any write the model saw.
R81: "An element the block does not write keeps the value the host left there". No body: nothing can evaluate it. -/
opaque Config.hostPcmByte : Nat → Byte

end Sys2Proof
end

