-- ==== Sys2Proof/Syntax.lean ====
section
/-! DEFINITION. The block's commands: one constructor for each row of spec/opcode_table.json (spec/30_encoding.md R111).
A command's operands are not in its word: they are the values of ARG0 and ARG1 when COMMAND is written (R110, R114).
The one field of a command word besides the operation code is S, which only READ_SAMPLES has (R110). -/

namespace Sys2Proof

/-- The eight commands of R111. -/
inductive Instr where
  /-- OPC 0x01, `SET_RATES` (R163). -/
  | setRates
  /-- OPC 0x02, `SET_CUTOFF`, legal only when `FREQ_AWARE` is true (R147). -/
  | setCutoff
  /-- OPC 0x03, `CLEAR` (R165). -/
  | clear
  /-- OPC 0x04, `CLOCKS_NEEDED` (R166). -/
  | clocksNeeded
  /-- OPC 0x05, `ADD_DELTA` (R170). -/
  | addDelta
  /-- OPC 0x06, `END_FRAME` (R176). -/
  | endFrame
  /-- OPC 0x07, `SAMPLES_AVAIL` (R180). -/
  | samplesAvail
  /-- OPC 0x08, `READ_SAMPLES` with the stereo layout flag S (R200). -/
  | readSamples (stereo : Bool)
  deriving DecidableEq, Repr

end Sys2Proof
end

