-- ==== Sys2Proof/WellFormed.lean ====
section
/-! DEFINITION. What a legal configuration is (spec/00_scope.md R11, spec/40_kernel_bank.md R141: "a model refuses a bank
that breaks one"), and which commands a configuration has (spec/30_encoding.md R112, R113). -/

namespace Sys2Proof

/-- R141 items 1 to 4 for one kernel: tap count, coefficient range, unity gain, symmetry. (Item 5, causality, is how
ADD_DELTA applies the taps.) -/
def Kernel.legal (maxTaps : Nat) (k : Kernel) : Bool :=
  decide (1 ≤ k.length) && decide (k.length ≤ maxTaps)
    && k.all (fun c => decide (-2 ^ 31 ≤ c) && decide (c < 2 ^ 31))
    && decide (k.sum = kernelUnity)
    && decide (k.reverse = k)

/-- The bank's kernels meet R141, and `KC` is a partial map from a rate index and a NONZERO cutoff (R14). -/
def KernelBank.legal (maxTaps : Nat) (b : KernelBank) : Bool :=
  Kernel.legal maxTaps b.kr48000 && Kernel.legal maxTaps b.kr96000 && Kernel.legal maxTaps b.kr192000
    && Kernel.legal maxTaps b.kr384000 && Kernel.legal maxTaps b.kr768000
    && b.kc.all (fun e => decide (e.cutoff ≠ 0) && Kernel.legal maxTaps e.kernel)
    && decide ((b.kc.map (fun e => (e.rate, e.cutoff))).Nodup)

/-- The legal ranges of R11 and a legal bank. -/
def Config.legal (cfg : Config) : Bool :=
  decide (1 ≤ cfg.size) && decide (cfg.size ≤ 2 ^ 20)
    && decide (1 ≤ cfg.maxTaps) && decide (cfg.maxTaps ≤ 256)
    && decide (cfg.headroom ≤ 256)
    && decide (cfg.leakShift ≤ 15)
    && cfg.bank.legal cfg.maxTaps

/-- A command exists in a configuration: every one does, but SET_CUTOFF only when `FREQ_AWARE` is true (R112, R113). -/
def Instr.wellFormed (cfg : Config) (i : Instr) : Bool :=
  match i with
  | .setCutoff => cfg.freqAware
  | .setRates | .clear | .clocksNeeded | .addDelta | .endFrame | .samplesAvail | .readSamples _ => true

end Sys2Proof
end

