-- ==== Sys2Proof/Decode.lean ====
section
/-! DEFINITION. Decoding of command words (spec/30_encoding.md R110 to R113), total on every word and on every list of
bytes and rejecting by name, and the encoder written from the same tables. -/

namespace Sys2Proof

/-- Why a word is no command. Every one of them is cause ILLEGAL for the machine (R112); the names keep R112's order. -/
inductive DecodeError where
  /-- `v[63:9] != 0` (R112, first check). -/
  | reservedBits
  /-- `opc = 0x00 or opc > 0x08` (R112, second check). -/
  | reservedOpcode
  /-- `s = 1 and opc != 0x08` (R112, third check). -/
  | strayStereo
  /-- Not eight bytes: every command is 64 bits (R110). Raised by decodeBytes only. -/
  | wrongLength
  deriving DecidableEq, Repr

/-- The field `OPC = v[7:0]` (R110). -/
def opcField (v : Word) : BitVec 8 := v.extractLsb' 0 8

/-- The field `S = v[8]` (R110). -/
def stereoField (v : Word) : Bool := v.getLsbD 8

/-- The reserved field `v[63:9]` (R110). -/
def reservedField (v : Word) : BitVec 55 := v.extractLsb' 9 55

/-- The operation an operation code names (R111), for the value of S that R112 lets it have. -/
def operationOf (opc : BitVec 8) (stereo : Bool) : Option Instr :=
  match opc.toNat with
  | 0x01 => some .setRates
  | 0x02 => some .setCutoff
  | 0x03 => some .clear
  | 0x04 => some .clocksNeeded
  | 0x05 => some .addDelta
  | 0x06 => some .endFrame
  | 0x07 => some .samplesAvail
  | 0x08 => some (.readSamples stereo)
  | _ => none

/-- R112's decoder. SET_CUTOFF without `FREQ_AWARE` is not seen here but in its meaning: a word does not know the
configuration, and the check comes last in R112. -/
def decode (v : Word) : Except DecodeError Instr :=
  if reservedField v ≠ 0 then .error .reservedBits
  else
    match operationOf (opcField v) (stereoField v) with
    | none => .error .reservedOpcode
    | some i =>
      if stereoField v = true ∧ opcField v ≠ 0x08 then .error .strayStereo else .ok i

/-- The operation code of a command (R111). -/
def Instr.opcode (i : Instr) : BitVec 8 :=
  match i with
  | .setRates => 0x01
  | .setCutoff => 0x02
  | .clear => 0x03
  | .clocksNeeded => 0x04
  | .addDelta => 0x05
  | .endFrame => 0x06
  | .samplesAvail => 0x07
  | .readSamples _ => 0x08

/-- The S bit of a command: READ_SAMPLES' flag, 0 for every other operation (R110). -/
def Instr.stereo (i : Instr) : Bool :=
  match i with
  | .readSamples st => st
  | .setRates | .setCutoff | .clear | .clocksNeeded | .addDelta | .endFrame | .samplesAvail => false

/-- The word of a command: reserved bits 0, then S, then OPC (R110). -/
def encode (i : Instr) : Word := (0 : BitVec 55) ++ BitVec.ofBool i.stereo ++ i.opcode

/-- The eight bytes of a word, the lowest address first: bits `[8k+7:8k]` at offset `k` (R82). -/
def bytesOfWord (v : Word) : List Byte :=
  [v.extractLsb' 0 8, v.extractLsb' 8 8, v.extractLsb' 16 8, v.extractLsb' 24 8,
   v.extractLsb' 32 8, v.extractLsb' 40 8, v.extractLsb' 48 8, v.extractLsb' 56 8]

/-- The word eight bytes hold, little-endian (R82), and nothing for another number of bytes. -/
def wordOfBytes (bs : List Byte) : Option Word :=
  match bs with
  | [b0, b1, b2, b3, b4, b5, b6, b7] => some (b7 ++ b6 ++ b5 ++ b4 ++ b3 ++ b2 ++ b1 ++ b0)
  | _ => none

/-- The decoder on bytes: total, and by name where the bytes are no command. -/
def decodeBytes (bs : List Byte) : Except DecodeError Instr :=
  match wordOfBytes bs with
  | some v => decode v
  | none => .error .wrongLength

/-- The host's question: the command this decoder reads from a table word of `nbits` bits, the bits above 0. The word
is laid out as eight little-endian bytes (R82) and given to decodeBytes. -/
def decodeTableWord (nbits w : Nat) : Option Instr :=
  if 2 ^ 64 ≤ w % 2 ^ nbits then none
  else
    match decodeBytes (bytesOfWord (BitVec.ofNat 64 (w % 2 ^ nbits))) with
    | .ok i => some i
    | .error _ => none

end Sys2Proof
end

