-- ==== Sys2Proof/Machine/State.lean ====
section
/-! DEFINITION. The machine's state as plain data (spec/10_state.md R54), the accesses a host performs (spec/20_memory.md
R84), the reasons a step can stop, and the state after reset (spec/70_reset_and_hazards.md R261). -/

namespace Sys2Proof.Machine

/-- Why a step faults. The spec names no condition that stops the block: every error is a recorded rejection after which
"later commands are performed normally" (R224, R227), and an access outside the window does not reach the block (R84).
So this type has NO constructor: nothing raises a fault, and no run of the model ends in one. -/
inductive Fault where
  deriving DecidableEq, Repr

/-- Why a step has no meaning. -/
inductive Refusal where
  /-- An instruction whose meaning is not written. Raised by an arm of exec only; no arm raises it. Safe. -/
  | notModelled (mnemonic : String)
  /-- The parameters break R11 or the kernel bank breaks R141. Raised by step only, before any access is performed:
  "a model refuses to build such a configuration (no block exists, so no partial object is usable)" (R221). Safe. -/
  | illegalConfiguration
  deriving DecidableEq, Repr

/-- The rejection causes of R220, code 1 to 7 in this order. -/
inductive Cause where
  | illegal
  | uninit
  | rate
  | capacity
  | range
  | bus
  | operand
  deriving DecidableEq, Repr

/-- Which kernel is selected: KSEL's KIND and RATE_IDX together (R45). KIND 1 and 2 always have a rate index, KIND 0 may
have none (0xFF), and KIND 3 never occurs. -/
inductive KernelSource where
  /-- KIND 0, the Dirac fallback; `idx` is the index of the recorded rate, if it has one. -/
  | dirac (idx : Option RateIdx)
  /-- KIND 1, the rate kernel `KR(idx)`. -/
  | rate (idx : RateIdx)
  /-- KIND 2, the cutoff kernel `KC(idx, CUTOFF)`. -/
  | cutoff (idx : RateIdx)
  deriving DecidableEq, Repr

/-- The KSEL register: the selection and the tap count it latched (R45, R54). -/
structure KSel where
  source : KernelSource
  taps   : Nat
  deriving DecidableEq, Repr

/-- The accumulator file `ACC[0..DEPTH-1]` (R49): its nonzero slots as (slot, value), slots strictly rising. A slot not
listed holds 0, which is what reset and CLEAR leave in every slot, so equal files are equal data (log 6). -/
abbrev AccFile := List (Nat × Word)

/-- The bytes of the host's PCM array that have been written, as (byte address, byte), addresses strictly rising (R81,
R82). A byte not listed has no value of the model's: it is what the host left there (log 4). -/
abbrev Memory := List Host.Cell

/-- One access of the host, the input of one step (R30, R84). Addresses are host bus addresses (R87). -/
inductive HostAccess where
  /-- `RegRead` of `n` bytes at a bus address. -/
  | regRead (addr n : Nat)
  /-- `RegWrite` of `n` bytes at a bus address; `v` holds the value. -/
  | regWrite (addr n : Nat) (v : Word)
  /-- The host reads element `idx` of its own PCM array (R81, R89). -/
  | pcmLoad (idx : Word)
  /-- The host writes element `idx` of its own PCM array (R81). -/
  | pcmStore (idx : Word) (v : BitVec 16)
  /-- Power-on or assertion of the block's reset input, one step (R260). -/
  | reset
  deriving DecidableEq, Repr

/-- What the latest read access returned to the host. -/
inductive HostResponse where
  /-- No read since reset, or the latest one did not reach the block (R84). -/
  | nothing
  /-- The 64 bits a register read returned. -/
  | word (v : Word)
  /-- The element a PCM read returned. -/
  | sample (v : BitVec 16)
  deriving DecidableEq, Repr

/-- One block with its parameters, the host's PCM array and the host's pending accesses. -/
structure State where
  /-- The build-time parameters (R11, R53): arguments of the model, which no step changes (log 1). -/
  cfg        : Config
  /-- `S.ready`, STATUS.READY (R50). -/
  ready      : Bool
  /-- FACTOR (R40), in units of `2^-32` output samples per clock tick. -/
  factor     : Nat
  /-- OFFSET (R41), in units of `2^-32` output samples. -/
  offset     : Nat
  /-- AVAIL (R42). -/
  avail      : Nat
  /-- INTEGRATOR (R43), two's complement with 15 fractional bits. -/
  integrator : Word
  /-- ACC (R49). -/
  acc        : AccFile
  /-- SAMPLE_RATE (R44), a binary64 bit pattern. -/
  sampleRate : Word
  /-- CUTOFF[31:0] (R46). -/
  cutoff     : BitVec 32
  /-- KSEL (R45). -/
  ksel       : KSel
  /-- ARG0 (R37). -/
  arg0       : Word
  /-- ARG1 (R37). -/
  arg1       : Word
  /-- RESULT (R38). -/
  result     : Word
  /-- ERR = STATUS[14:8] (R35). -/
  err        : BitVec 7
  /-- LAST_ERR = STATUS[23:16] (R35). -/
  lastErr    : BitVec 8
  /-- IRQ_EN[14:8] (R36). -/
  irqEn      : BitVec 7
  /-- PCM_LEN (R47). -/
  pcmLen     : Word
  /-- The host's PCM output array (R80, R81); not the block's, reset does not touch it (R261). -/
  pcm        : Memory
  /-- The model's own: the accesses the host has yet to perform, the next one first (R7, R31; log 2). -/
  pending    : List HostAccess
  /-- The model's own: what the latest read returned (R84; log 3). -/
  response   : HostResponse
  deriving DecidableEq, Repr

/-- R261 for a block built with the parameters `cfg`: every field at the value the spec states. No access is pending and
no PCM byte is written. -/
def State.resetOf (cfg : Config) : State where
  cfg        := cfg
  ready      := false
  factor     := 2 ^ 32
  offset     := 2 ^ 31
  avail      := 0
  integrator := 0
  acc        := []
  sampleRate := 0
  cutoff     := 0
  ksel       := { source := .dirac none, taps := 1 }
  arg0       := 0
  arg1       := 0
  result     := 0
  err        := 0
  lastErr    := 0
  irqEn      := 0
  pcmLen     := 0
  pcm        := []
  pending    := []
  response   := .nothing

/-- The machine right after reset, in the configuration TC (log 1). -/
def State.reset : State := State.resetOf Config.tc

end Sys2Proof.Machine
end

