-- ==== Sys2Proof/Machine/Flags.lean ====
section
/-! DEFINITION. Cause codes, the sticky ERR bits, the interrupt output, and the STATUS and IRQ_EN words (spec/10_state.md
R35, R36; spec/60_exceptions.md R220, R224, R230). -/

namespace Sys2Proof.Machine

/-- The code of a cause (R220). -/
def Cause.code (c : Cause) : Nat :=
  match c with
  | .illegal => 1
  | .uninit => 2
  | .rate => 3
  | .capacity => 4
  | .range => 5
  | .bus => 6
  | .operand => 7

/-- `S.err | (1 << (n - 1))` for the cause of code n (R224): STATUS bit `7 + n`. -/
def raiseErr (c : Cause) (err : BitVec 7) : BitVec 7 := err ||| (1#7 <<< (c.code - 1))

/-- The field `v[14:8]` of a written word (R35, R36). -/
def errField (v : Word) : BitVec 7 := v.extractLsb' 8 7

/-- `ERR & ~v[14:8]`, a STATUS write (R35). -/
def clearErr (v : Word) (err : BitVec 7) : BitVec 7 := err &&& ~~~(errField v)

/-- `irq = ((S.err & S.irq_en) != 0)`, a level (R230). -/
def State.irq (s : State) : Bool := decide (s.err &&& s.irqEn ≠ 0)

/-- The STATUS word, high field first (R35). -/
def statusWord (s : State) : Word :=
  (0 : BitVec 40) ++ s.lastErr ++ (0 : BitVec 1) ++ s.err ++ (0 : BitVec 7) ++ BitVec.ofBool s.ready

/-- The IRQ_EN word: bits [14:8], every other bit 0 (R36). -/
def irqEnWord (s : State) : Word := (0 : BitVec 49) ++ s.irqEn ++ (0 : BitVec 8)

end Sys2Proof.Machine
end

