-- ==== Sys2Proof/Machine/Operands.lean ====
section
/-! DEFINITION. The operand forms of the commands (spec/30_encoding.md R114 to R117): a 32-bit unsigned operand of ARG0,
the signed amplitude of ARG1, and the stride S selects. The binary64 operands of SET_RATES and the 64-bit base of
READ_SAMPLES use all 64 bits as they stand. -/

namespace Sys2Proof.Machine

/-- A 32-bit unsigned operand (R115): the low half, provided the upper half is 0; otherwise E_OPERAND. -/
def operandU32 (v : Word) : Option (BitVec 32) :=
  if v.extractLsb' 32 32 = 0 then some (v.extractLsb' 0 32) else none

/-- The signed amplitude operand (R116): `s64(v)`, provided v is its low half sign-extended; otherwise E_OPERAND. -/
def operandS32 (v : Word) : Option Int :=
  if v = (v.extractLsb' 0 32).signExtend 64 then some v.toInt else none

/-- The stride of the channel layout: 1 mono, 2 stereo (R200). -/
def strideOf (stereo : Bool) : Nat := if stereo then 2 else 1

end Sys2Proof.Machine
end

