-- ==== Sys2Proof/Machine/Ops.lean ====
section
/-! DEFINITION. The named operations over state: the integer operators of spec/00_scope.md R15 and R17, cells in canonical
form, the accumulator file, the PCM output space, and rejecting a command (spec/60_exceptions.md R224), which is this
block's taking of an exception. There is no return from one (R226): the host clears the ERR bits by a STATUS write. -/

namespace Sys2Proof.Machine

/-! ### Integer operators (R15, R17) -/

/-- `wrap64(v)`: v modulo 2^64 as a word (R15). -/
def wrap64 (v : Int) : Word := BitVec.ofInt 64 v

/-- `asr(v, n) = floor(v / 2^n)` (R17); Int's `/` rounds down for a positive divisor. -/
def asr (v : Int) (n : Nat) : Int := v / 2 ^ n

/-- `ceil_div(a, b)`: the least q with `q * b >= a`, for b > 0 (R17). -/
def ceilDiv (a b : Nat) : Nat := (a + b - 1) / b

/-- `clamp16(v) = max(-32768, min(32767, v))` (R17). -/
def clamp16 (v : Int) : Int := max (-32768) (min 32767 v)

/-! ### Cells: lists of (key, value) with strictly rising keys -/

/-- The value listed under a key. -/
def cellsGet {α : Type} (m : List (Nat × α)) (a : Nat) : Option α :=
  match m with
  | [] => none
  | (k, v) :: rest => if k = a then some v else cellsGet rest a

/-- List `v` under the key `a`, in place of what was listed there, keeping the order. -/
def cellsPut {α : Type} (m : List (Nat × α)) (a : Nat) (v : α) : List (Nat × α) :=
  match m with
  | [] => [(a, v)]
  | (k, w) :: rest =>
    if a < k then (a, v) :: (k, w) :: rest
    else if k = a then (a, v) :: rest
    else (k, w) :: cellsPut rest a v

/-- List nothing under the key `a`. -/
def cellsErase {α : Type} (m : List (Nat × α)) (a : Nat) : List (Nat × α) :=
  m.filter (fun e => decide (e.1 ≠ a))

/-- The keys rise strictly. -/
def cellsSorted {α : Type} (m : List (Nat × α)) : Bool := decide ((m.map Prod.fst).Pairwise (· < ·))

/-! ### The accumulator file (R18, R49) -/

/-- `ACC[j]`; a slot not listed is 0. -/
def accRead (acc : AccFile) (j : Nat) : Word := (cellsGet acc j).getD 0

/-- `ACC[j] <- v`. -/
def accWrite (acc : AccFile) (j : Nat) (v : Word) : AccFile :=
  if v = 0 then cellsErase acc j else cellsPut acc j v

/-- `ACC[j] <- wrap64(ACC[j] + x)` (R170). -/
def accAdd (acc : AccFile) (j : Nat) (x : Int) : AccFile :=
  accWrite acc j (wrap64 ((accRead acc j).toInt + x))

/-- The tap loop of R170: `ACC[base + i] <- wrap64(ACC[base + i] + d * c[i])` for i = 0, 1, ... -/
def accAddTaps (acc : AccFile) (base : Nat) (d : Int) (taps : Kernel) : AccFile :=
  match taps with
  | [] => acc
  | c :: rest => accAddTaps (accAdd acc base (d * c)) (base + 1) d rest

/-- `Retire(c)` (R203): every slot moves down by c and the top c slots become 0. -/
def accRetire (acc : AccFile) (c : Nat) : AccFile :=
  acc.filterMap (fun e => if c ≤ e.1 then some (e.1 - c, e.2) else none)

/-- The canonical form of an accumulator file of `depth` slots: slots strictly rising and below `depth`, no 0 listed. -/
def accWf (depth : Nat) (acc : AccFile) : Bool :=
  cellsSorted acc && acc.all (fun e => decide (e.1 < depth) && decide (e.2 ≠ 0))

/-! ### The PCM output space (R80 to R83) -/

/-- The byte at a byte address, if one was written. -/
def Memory.readByte (m : Memory) (a : Nat) : Option Byte := cellsGet m a

/-- Write one byte. -/
def Memory.writeByte (m : Memory) (a : Nat) (b : Byte) : Memory := cellsPut m a b

/-- The canonical form: addresses strictly rising. An unlisted byte has no value, so no entry equals what it reads as. -/
def Memory.wf (m : Memory) : Bool := cellsSorted m

/-- Element idx stands at byte address `PCM_BASE + 2*idx` (R87). -/
def pcmAddress (cfg : Config) (idx : Nat) : Nat := cfg.pcmBase + 2 * idx

/-- `PcmWrite(idx, v)` (R19): the low byte at the lower byte address (R82). -/
def pcmWrite (cfg : Config) (m : Memory) (idx : Nat) (v : BitVec 16) : Memory :=
  Memory.writeByte (Memory.writeByte m (pcmAddress cfg idx) (v.extractLsb' 0 8))
    (pcmAddress cfg idx + 1) (v.extractLsb' 8 8)

/-- The byte the host sees: the byte written there, or the free byte it left there itself (R81, log 4). -/
def hostByte (m : Memory) (a : Nat) : Byte := (Memory.readByte m a).getD (Config.hostPcmByte a)

/-- The element the host sees, high byte above low byte (R82). -/
def pcmElement (cfg : Config) (m : Memory) (idx : Nat) : BitVec 16 :=
  hostByte m (pcmAddress cfg idx + 1) ++ hostByte m (pcmAddress cfg idx)

/-! ### Rejection: this block's exception entry (R20, R224) -/

/-- `raise E_<cause>()`: the cause's ERR bit is set and LAST_ERR records its code; "nothing else changes" (R224). -/
def reject (c : Cause) (s : State) : State :=
  { s with err := raiseErr c s.err, lastErr := BitVec.ofNat 8 c.code }

/-- A command that ends in a rejection: a next state, since "the rejected command's COMMAND write completes normally"
(R224). -/
def rejected (c : Cause) (s : State) : Host.Outcome State Fault Refusal := .next (reject c s)

/-- `RESULT <- v` (R38). -/
def setResult (v : Nat) (s : State) : State := { s with result := BitVec.ofNat 64 v }

end Sys2Proof.Machine
end

