-- ==== Sys2Proof/Machine/Binary64.lean ====
section
/-! DEFINITION. Binary64 operands read as exact numbers (spec/30_encoding.md R117, spec/41_accumulator.md R161) and the
factor SET_RATES computes from them (R163, R164). The machine computes with a finite x's integer significand and its power of
two, which is exact, so no rational arithmetic runs in a step; binary64Rat is R161's rational, which statements use. -/

namespace Sys2Proof.Machine

/-- The sign bit `x[63]` (R161). -/
def signBit (x : Word) : Bool := x.getLsbD 63

/-- The biased exponent `x[62:52]` (R161). -/
def exponentField (x : Word) : Nat := (x.extractLsb' 52 11).toNat

/-- The fraction `x[51:0]` (R161). -/
def fractionField (x : Word) : Nat := (x.extractLsb' 0 52).toNat

/-- `isFinite(x)`: `e != 0x7FF` (R161). -/
def isFinite64 (x : Word) : Bool := decide (exponentField x ≠ 0x7FF)

/-- The integer a finite x's magnitude is a multiple of a power of two of: `m` for exponent field 0, else `2^52 + m`
(R161). -/
def significand (x : Word) : Nat :=
  if exponentField x = 0 then fractionField x else 2 ^ 52 + fractionField x

/-- The power of two, plus 1075: `|rat(x)| = significand x * 2^(scaleOf x - 1075)`, the scale being 1 for exponent field 0
(R161). -/
def scaleOf (x : Word) : Nat := if exponentField x = 0 then 1 else exponentField x

/-- `rat(x) > 0` for a finite x: sign 0 and not zero (R161, R162). -/
def isPositive64 (x : Word) : Bool := !signBit x && decide (significand x ≠ 0)

/-- `rat(x)` as R161 writes it. -/
def binary64Rat (x : Word) : ℚ :=
  (if signBit x then -1 else 1) *
    (if exponentField x = 0 then (fractionField x : ℚ) * (2 : ℚ) ^ ((1 : ℤ) - 1075)
     else ((2 ^ 52 + fractionField x : ℕ) : ℚ) * (2 : ℚ) ^ ((exponentField x : ℤ) - 1075))

/-- `ceil_div(n, d)` for `n / d = 2^32 * rat(sr) / rat(cr)` (R163, R164), both positive: the quotient of the significands
times 2 to the 32 plus the difference of the scales. -/
def factorOf (cr sr : Word) : Nat :=
  if scaleOf cr ≤ scaleOf sr then ceilDiv (significand sr * 2 ^ (32 + (scaleOf sr - scaleOf cr))) (significand cr)
  else ceilDiv (significand sr * 2 ^ 32) (significand cr * 2 ^ (scaleOf cr - scaleOf sr))

end Sys2Proof.Machine
end

