-- ==== Sys2Proof/Machine/KernelBank.lean ====
section
/-! DEFINITION. The kernel bank's lookup, kernel selection and SET_CUTOFF (spec/40_kernel_bank.md R140 to R147). -/

namespace Sys2Proof.Machine

/-- The Dirac kernel: one tap of `2^AMP_FRAC` (R142). -/
def diracKernel : Kernel := [kernelUnity]

/-- The rate of an index in Hz (R143). -/
def rateHz (i : RateIdx) : Nat :=
  match i with
  | .r48000 => 48000
  | .r96000 => 96000
  | .r192000 => 192000
  | .r384000 => 384000
  | .r768000 => 768000

/-- The number RATE_IDX of an index (R143). -/
def rateNumber (i : RateIdx) : Nat :=
  match i with
  | .r48000 => 0
  | .r96000 => 1
  | .r192000 => 2
  | .r384000 => 3
  | .r768000 => 4

/-- The binary64 bit pattern of a rate (R143). -/
def ratePattern (i : RateIdx) : Word :=
  match i with
  | .r48000 => 0x40E7700000000000
  | .r96000 => 0x40F7700000000000
  | .r192000 => 0x4107700000000000
  | .r384000 => 0x4117700000000000
  | .r768000 => 0x4127700000000000

/-- The rate index of a recorded sample rate, if it is exactly one of the five rates (R144). A nonzero binary64 value has
one bit pattern, so equality as a real number is equality with the pattern of R143 (stated as an obligation). -/
def rateIndexOf (sr : Word) : Option RateIdx :=
  [RateIdx.r48000, .r96000, .r192000, .r384000, .r768000].find? (fun i => decide (sr = ratePattern i))

/-- `KR(i)` (R140). -/
def KernelBank.kr (b : KernelBank) (i : RateIdx) : Kernel :=
  match i with
  | .r48000 => b.kr48000
  | .r96000 => b.kr96000
  | .r192000 => b.kr192000
  | .r384000 => b.kr384000
  | .r768000 => b.kr768000

/-- `KC(i, cutoff)` where it is defined (R140). -/
def KernelBank.kcAt (b : KernelBank) (i : RateIdx) (cut : BitVec 32) : Option Kernel :=
  (b.kc.find? (fun e => decide (e.rate = i ∧ e.cutoff = cut))).map CutoffKernel.kernel

/-- `Select(sr, cut)` (R145). -/
def selectKernel (cfg : Config) (sr : Word) (cut : BitVec 32) : KSel :=
  match rateIndexOf sr with
  | none => { source := .dirac none, taps := 1 }
  | some i =>
    if cut = 0 then { source := .rate i, taps := (KernelBank.kr cfg.bank i).length }
    else
      match (if cfg.freqAware then KernelBank.kcAt cfg.bank i cut else none) with
      | some k => { source := .cutoff i, taps := k.length }
      | none => { source := .dirac (some i), taps := 1 }

/-- The active kernel `K` (R146). DEDUCED (log 7): a KIND 2 selection whose entry does not exist, which R51 rules out of
every reachable state, falls back to the Dirac kernel as every unsupported combination does (R145, R225). -/
def activeKernel (s : State) : Kernel :=
  match s.ksel.source with
  | .dirac _ => diracKernel
  | .rate i => KernelBank.kr s.cfg.bank i
  | .cutoff i => (KernelBank.kcAt s.cfg.bank i s.cutoff).getD diracKernel

/-- SET_CUTOFF (R147). The legality check on `FREQ_AWARE` is the last of R112's. -/
def execSetCutoff (s : State) : Host.Outcome State Fault Refusal :=
  if s.cfg.freqAware then
    match operandU32 s.arg0 with
    | none => rejected .operand s
    | some cut => .next { s with cutoff := cut, ksel := selectKernel s.cfg s.sampleRate cut }
  else rejected .illegal s

end Sys2Proof.Machine
end

