-- ==== Sys2Proof/Machine/Accumulator.lean ====
section
/-! DEFINITION. The delta accumulator and rate configuration: SET_RATES, CLEAR, CLOCKS_NEEDED, ADD_DELTA, END_FRAME and
SAMPLES_AVAIL (spec/41_accumulator.md R160 to R180). The checks of each stand in R160's order: operand range, zero no-op,
Ready, the command's own. -/

namespace Sys2Proof.Machine

/-- The fixed-point position `t * factor + offset` (R171, R176). -/
def positionAt (s : State) (t : Nat) : Nat := t * s.factor + s.offset

/-- The slot of tap 0 of a delta at time t: `avail + (pos >> 32)` (R170). -/
def deltaBase (s : State) (t : Nat) : Nat := s.avail + positionAt s t / timeUnit

/-- SET_RATES (R163). -/
def execSetRates (s : State) : Host.Outcome State Fault Refusal :=
  if !(isFinite64 s.arg0 && isFinite64 s.arg1) then rejected .rate s
  else if !(isPositive64 s.arg0 && isPositive64 s.arg1) then rejected .rate s
  else if maxFactor < factorOf s.arg0 s.arg1 then rejected .rate s
  else
    .next { s with
      factor     := factorOf s.arg0 s.arg1
      sampleRate := s.arg1
      ready      := true
      ksel       := selectKernel s.cfg s.arg1 s.cutoff }

/-- CLEAR (R165). -/
def execClear (s : State) : Host.Outcome State Fault Refusal :=
  .next { s with acc := [], offset := s.factor / 2, avail := 0, integrator := 0 }

/-- The tick count of R166 for n more samples. -/
def ticksFor (s : State) (n : Nat) : Nat :=
  if n * timeUnit ≤ s.offset then 0 else ceilDiv (n * timeUnit - s.offset) s.factor

/-- CLOCKS_NEEDED (R166). -/
def execClocksNeeded (s : State) : Host.Outcome State Fault Refusal :=
  match operandU32 s.arg0 with
  | none => rejected .operand s
  | some n =>
    if n = 0 then .next (setResult 0 s)
    else if !s.ready then rejected .uninit s
    else if s.cfg.size < s.avail + n.toNat then rejected .capacity s
    else .next (setResult (ticksFor s n.toNat) s)

/-- ADD_DELTA (R170). -/
def execAddDelta (s : State) : Host.Outcome State Fault Refusal :=
  match operandU32 s.arg0, operandS32 s.arg1 with
  | some t, some d =>
    if d = 0 then .next s
    else if !s.ready then rejected .uninit s
    else if s.cfg.depth < deltaBase s t.toNat + (activeKernel s).length then rejected .capacity s
    else .next { s with acc := accAddTaps s.acc (deltaBase s t.toNat) d (activeKernel s) }
  | _, _ => rejected .operand s

/-- END_FRAME (R176). -/
def execEndFrame (s : State) : Host.Outcome State Fault Refusal :=
  match operandU32 s.arg0 with
  | none => rejected .operand s
  | some t =>
    if t = 0 then .next s
    else if !s.ready then rejected .uninit s
    else if s.cfg.size < s.avail + positionAt s t.toNat / timeUnit then rejected .capacity s
    else
      .next { s with
        avail  := s.avail + positionAt s t.toNat / timeUnit
        offset := positionAt s t.toNat % timeUnit }

/-- SAMPLES_AVAIL (R180). -/
def execSamplesAvail (s : State) : Host.Outcome State Fault Refusal := .next (setResult s.avail s)

end Sys2Proof.Machine
end

