-- ==== Sys2Proof/Machine/OutputReader.lean ====
section
/-! DEFINITION. The output reader: READ_SAMPLES (spec/42_output_reader.md R200 to R207). -/

namespace Sys2Proof.Machine

/-- The sample of an integrator value: `clamp16(asr(s64(integrator), AMP_FRAC))` (R202 steps 1 and 2). -/
def sampleOf (integ : Word) : Int := clamp16 (asr integ.toInt ampFrac)

/-- `Leak(smp)` (R204): nothing for shift 0, else `wrap64(integrator - smp * 2^(AMP_FRAC - LEAK_SHIFT))`. -/
def leak (shift : Nat) (smp : Int) (integ : Word) : Word :=
  if shift = 0 then integ else wrap64 (integ.toInt - smp * 2 ^ (ampFrac - shift))

/-- The integrator after one sample: the slot is added, then the leak (R202 step 4, R204). -/
def integrate (shift : Nat) (integ slot : Word) : Word :=
  leak shift (sampleOf integ) (wrap64 (integ.toInt + slot.toInt))

/-- The sample loop of R200: `n` samples from slot `k` on, each written before its slot is added. It answers the last
integrator and the PCM array. -/
def readLoop (s : State) (base stride n k : Nat) (integ : Word) (m : Memory) : Word × Memory :=
  match n with
  | 0 => (integ, m)
  | n + 1 =>
    readLoop s base stride n (k + 1)
      (integrate s.cfg.leakShift integ (accRead s.acc k))
      (pcmWrite s.cfg m (base + k * stride) (BitVec.ofInt 16 (sampleOf integ)))

/-- `c = min(ARG0[31:0], S.avail)` (R200). -/
def readCount (s : State) (count : BitVec 32) : Nat := min count.toNat s.avail

/-- READ_SAMPLES (R200). -/
def execReadSamples (stereo : Bool) (s : State) : Host.Outcome State Fault Refusal :=
  match operandU32 s.arg0 with
  | none => rejected .operand s
  | some count =>
    if readCount s count = 0 then .next (setResult 0 s)
    else if s.pcmLen.toNat ≤ s.arg1.toNat + (readCount s count - 1) * strideOf stereo then rejected .range s
    else
      let out := readLoop s s.arg1.toNat (strideOf stereo) (readCount s count) 0 s.integrator s.pcm
      .next (setResult (readCount s count) { s with
        integrator := out.1
        pcm        := out.2
        acc        := accRetire s.acc (readCount s count)
        avail      := s.avail - readCount s count })

end Sys2Proof.Machine
end

