-- ==== Sys2Proof/Machine/Dispatch.lean ====
section
/-! DEFINITION. exec: one arm for each command, each a direct call of its meaning (spec/30_encoding.md R112). -/

namespace Sys2Proof.Machine

def exec (i : Instr) (s : State) : Host.Outcome State Fault Refusal :=
  match i with
  | .setRates => Sys2Proof.Machine.execSetRates s
  | .setCutoff => Sys2Proof.Machine.execSetCutoff s
  | .clear => Sys2Proof.Machine.execClear s
  | .clocksNeeded => Sys2Proof.Machine.execClocksNeeded s
  | .addDelta => Sys2Proof.Machine.execAddDelta s
  | .endFrame => Sys2Proof.Machine.execEndFrame s
  | .samplesAvail => Sys2Proof.Machine.execSamplesAvail s
  | .readSamples stereo => Sys2Proof.Machine.execReadSamples stereo s

end Sys2Proof.Machine
end

