-- ==== Sys2Proof/Machine/RegisterWindow.lean ====
section
/-! DEFINITION. The register window (spec/10_state.md R33 to R57) and the host's accesses (spec/20_memory.md R84 to R89):
what an offset names, what a read returns, what a write does, and performing one access. -/

namespace Sys2Proof.Machine

/-- What an aligned offset of the window names (R57). -/
inductive WindowSlot where
  | id
  | config
  | status
  | irqEn
  | arg0
  | arg1
  | result
  | command
  | factor
  | offset
  | avail
  | integrator
  | sampleRate
  | ksel
  | cutoff
  | pcmLen
  | size
  | depth
  /-- Slot j of the ACC window. -/
  | acc (j : Nat)
  | reserved
  deriving DecidableEq, Repr

/-- The named registers of R57. -/
def registerMap : List (Nat × WindowSlot) :=
  [(0x000, .id), (0x008, .config), (0x010, .status), (0x018, .irqEn), (0x020, .arg0), (0x028, .arg1),
   (0x030, .result), (0x038, .command), (0x040, .factor), (0x048, .offset), (0x050, .avail), (0x058, .integrator),
   (0x060, .sampleRate), (0x068, .ksel), (0x070, .cutoff), (0x078, .pcmLen), (0x080, .size), (0x088, .depth)]

/-- The map of R57: a named register, an ACC slot at `0x1000 + 8*j` for j < DEPTH, or reserved. -/
def windowSlot (cfg : Config) (off : Nat) : WindowSlot :=
  match cellsGet registerMap off with
  | some r => r
  | none =>
    if 0x1000 ≤ off ∧ off < 0x1000 + 8 * cfg.depth then .acc ((off - 0x1000) / 8) else .reserved

/-- The ID word (R33). -/
def idWord (cfg : Config) : Word :=
  (0x424C5253 : BitVec 32) ++ (0 : BitVec 14) ++ BitVec.ofBool (decide (cfg.leakShift ≠ 0))
    ++ BitVec.ofBool cfg.freqAware ++ (0x0007 : BitVec 16)

/-- The CONFIG word (R34). -/
def configWord (cfg : Config) : Word :=
  (0 : BitVec 8) ++ BitVec.ofNat 8 cfg.leakShift ++ BitVec.ofNat 16 cfg.headroom ++ BitVec.ofNat 16 cfg.maxTaps
    ++ BitVec.ofNat 8 ampFrac ++ BitVec.ofNat 8 32

/-- KSEL's KIND (R45). -/
def kindField (src : KernelSource) : BitVec 2 :=
  match src with
  | .dirac _ => 0
  | .rate _ => 1
  | .cutoff _ => 2

/-- KSEL's RATE_IDX, 0xFF for no index (R45). -/
def rateIdxField (src : KernelSource) : BitVec 8 :=
  match src with
  | .dirac none => 0xFF
  | .dirac (some i) | .rate i | .cutoff i => BitVec.ofNat 8 (rateNumber i)

/-- The KSEL word (R45). -/
def kselWord (k : KSel) : Word :=
  (0 : BitVec 32) ++ BitVec.ofNat 16 k.taps ++ rateIdxField k.source ++ (0 : BitVec 6) ++ kindField k.source

/-- The value a read returns (R33 to R49, R56): COMMAND and reserved offsets read 0. -/
def readSlot (w : WindowSlot) (s : State) : Word :=
  match w with
  | .id => idWord s.cfg
  | .config => configWord s.cfg
  | .status => statusWord s
  | .irqEn => irqEnWord s
  | .arg0 => s.arg0
  | .arg1 => s.arg1
  | .result => s.result
  | .command => 0
  | .factor => BitVec.ofNat 64 s.factor
  | .offset => BitVec.ofNat 64 s.offset
  | .avail => BitVec.ofNat 64 s.avail
  | .integrator => s.integrator
  | .sampleRate => s.sampleRate
  | .ksel => kselWord s.ksel
  | .cutoff => s.cutoff.setWidth 64
  | .pcmLen => s.pcmLen
  | .size => BitVec.ofNat 64 s.cfg.size
  | .depth => BitVec.ofNat 64 s.cfg.depth
  | .acc j => accRead s.acc j
  | .reserved => 0

/-- `Execute(v)` (R112): decode the word and run the command, or reject it with ILLEGAL. -/
def execute (v : Word) (s : State) : Host.Outcome State Fault Refusal :=
  match decode v with
  | .ok i => exec i s
  | .error _ => rejected .illegal s

/-- A write to what an offset names (R84): read-only registers and reserved offsets ignore it (R56). -/
def writeSlot (w : WindowSlot) (v : Word) (s : State) : Host.Outcome State Fault Refusal :=
  match w with
  | .status => .next { s with err := clearErr v s.err }
  | .irqEn => .next { s with irqEn := errField v }
  | .arg0 => .next { s with arg0 := v }
  | .arg1 => .next { s with arg1 := v }
  | .command => execute v s
  | .pcmLen => .next { s with pcmLen := v }
  | .id | .config | .result | .factor | .offset | .avail | .integrator | .sampleRate | .ksel | .cutoff | .size | .depth
  | .acc _ | .reserved => .next s

/-- The access check of R84: 8 bytes at a multiple of 8. -/
def accessOk (off n : Nat) : Bool := decide (n = 8 ∧ off % 8 = 0)

/-- The window offset of a bus address; none for an address that "do[es] not reach the block" (R84, R87). -/
def windowOffset (cfg : Config) (addr : Nat) : Option Nat :=
  if cfg.blrsBase ≤ addr ∧ addr < cfg.blrsBase + windowBytes then some (addr - cfg.blrsBase) else none

/-- `RegRead(off, n)` (R84): the value goes to the host; a malformed access records E_BUS and returns 0. -/
def regRead (off n : Nat) (s : State) : State :=
  if accessOk off n then { s with response := .word (readSlot (windowSlot s.cfg off) s) }
  else { reject .bus s with response := .word 0 }

/-- `RegWrite(off, n, v)` (R84). -/
def regWrite (off n : Nat) (v : Word) (s : State) : Host.Outcome State Fault Refusal :=
  if accessOk off n then writeSlot (windowSlot s.cfg off) v s else rejected .bus s

/-- Reset (R260, R261): every field of the block at its reset value. The host's PCM array is not touched, and the
accesses the host has yet to perform are still to come. -/
def resetBlock (s : State) : State := { State.resetOf s.cfg with pcm := s.pcm, pending := s.pending }

/-- One access of the host, performed to completion (R88, R89). An access outside the window changes nothing, and a read
there gets no response of the block (R84, log 5). -/
def perform (a : HostAccess) (s : State) : Host.Outcome State Fault Refusal :=
  match a with
  | .regRead addr n =>
    match windowOffset s.cfg addr with
    | some off => .next (regRead off n s)
    | none => .next { s with response := .nothing }
  | .regWrite addr n v =>
    match windowOffset s.cfg addr with
    | some off => regWrite off n v s
    | none => .next s
  | .pcmLoad idx => .next { s with response := .sample (pcmElement s.cfg s.pcm idx.toNat) }
  | .pcmStore idx v => .next { s with pcm := pcmWrite s.cfg s.pcm idx.toNat v }
  | .reset => .next (resetBlock s)

/-- The bus address of COMMAND (R57, R87). -/
def commandAddress (cfg : Config) : Nat := cfg.blrsBase + 0x038

/-- Performing the next pending access; with none the block waits and keeps its state (R237, R261). -/
def performNext (s : State) : Host.Outcome State Fault Refusal :=
  match s.pending with
  | [] => .next s
  | a :: rest => perform a { s with pending := rest }

end Sys2Proof.Machine
end

