-- ==== Sys2Proof/Machine/Step.lean ====
section
/-! DEFINITION. One step: the next pending access of the host, performed to completion (spec/20_memory.md R88, R89). The
block fetches nothing (spec/10_state.md R31): a command reaches it as a write to COMMAND. -/

namespace Sys2Proof.Machine

/-- One step. A configuration that breaks R11 or R141 is refused: no such block exists (R221). -/
def step (s : State) : Host.Outcome State Fault Refusal :=
  if s.cfg.legal then performNext s else .refused .illegalConfiguration

/-- The host's way to have a command run next: the write of its word to COMMAND is put first among the pending accesses,
and nothing else changes (log 2). -/
def State.withFetchWord (s : State) (nbits w : Nat) : State :=
  { s with pending := .regWrite (commandAddress s.cfg) 8 (BitVec.ofNat 64 (w % 2 ^ nbits)) :: s.pending }

end Sys2Proof.Machine
end

