-- ==== Sys2Proof/Machine/HostProgram.lean ====
section
/-! DEFINITION. The host's lines and pseudo-lines, and the register accesses they assemble to (spec/30_encoding.md R119,
R120). The number literals of the text are given here as the values they encode. -/

namespace Sys2Proof.Machine

/-- A line of R119: a command with its operands, or a register access line. -/
inductive HostLine where
  | setRates (clockRate sampleRate : Word)
  | setCutoff (cutoff : BitVec 32)
  | clear
  | clocksNeeded (sampleCount : BitVec 32)
  | addDelta (time amplitude : BitVec 32)
  | endFrame (clockDuration : BitVec 32)
  | samplesAvail
  | readSamples (stereo : Bool) (count : BitVec 32) (base : Word)
  /-- `W <reg> <- <value>`, the register by its offset. -/
  | write (off : Nat) (v : Word)
  /-- `R <reg>`. -/
  | read (off : Nat)
  deriving DecidableEq, Repr

/-- A pseudo-instruction of R120. -/
inductive PseudoLine where
  | start (clockRate sampleRate : Word)
  | drain (stereo : Bool) (base : Word)
  | ackErrors
  | setPcmLen (n : Word)
  deriving DecidableEq, Repr

/-- A 64-bit write of the register at an offset. -/
def writeAccess (cfg : Config) (off : Nat) (v : Word) : HostAccess := .regWrite (cfg.blrsBase + off) 8 v

/-- The write of a command's word to COMMAND. -/
def commandAccess (cfg : Config) (i : Instr) : HostAccess := .regWrite (commandAddress cfg) 8 (encode i)

/-- The accesses of a line, in R119's order: ARG0 if the operation reads it, then ARG1 if it reads it, then COMMAND. An
unsigned operand is zero-extended (R115), an amplitude sign-extended (R116). -/
def assemble (cfg : Config) (line : HostLine) : List HostAccess :=
  match line with
  | .setRates cr sr => [writeAccess cfg 0x020 cr, writeAccess cfg 0x028 sr, commandAccess cfg .setRates]
  | .setCutoff cut => [writeAccess cfg 0x020 (cut.setWidth 64), commandAccess cfg .setCutoff]
  | .clear => [commandAccess cfg .clear]
  | .clocksNeeded n => [writeAccess cfg 0x020 (n.setWidth 64), commandAccess cfg .clocksNeeded]
  | .addDelta t d =>
    [writeAccess cfg 0x020 (t.setWidth 64), writeAccess cfg 0x028 (d.signExtend 64), commandAccess cfg .addDelta]
  | .endFrame t => [writeAccess cfg 0x020 (t.setWidth 64), commandAccess cfg .endFrame]
  | .samplesAvail => [commandAccess cfg .samplesAvail]
  | .readSamples st n base =>
    [writeAccess cfg 0x020 (n.setWidth 64), writeAccess cfg 0x028 base, commandAccess cfg (.readSamples st)]
  | .write off v => [writeAccess cfg off v]
  | .read off => [.regRead (cfg.blrsBase + off) 8]

/-- The expansion of a pseudo-instruction (R120). -/
def expand (p : PseudoLine) : List HostLine :=
  match p with
  | .start cr sr => [.setRates cr sr, .clear]
  | .drain st base => [.readSamples st 0xFFFFFFFF base]
  | .ackErrors => [.write 0x010 0x7F00]
  | .setPcmLen n => [.write 0x078 n]

end Sys2Proof.Machine
end

