-- ==== Sys2Proof/Safety.lean ====
section
/-! DEFINITION. What a correct state is (spec/10_state.md R51, spec/60_exceptions.md R228), and the words the statements
are written in: a command with its operands, runs of commands, and the quantities the spec's derived rules speak of. -/

namespace Sys2Proof.Machine

/-- R228: "a state with any ERR bit set is never a correct final state". -/
def State.Clean (s : State) : Prop := s.err = 0

/-- The invariant of every reachable state: R51, with what keeps it meaningful: a legal configuration (R11, R141), CUTOFF 0
for ever without `FREQ_AWARE` (R46), canonical lists, the recorded codes (R220), and the reset values a block that was
never given its rates still has (R50, R222, R261). -/
structure State.Inv (s : State) : Prop where
  cfgLegal     : s.cfg.legal = true
  factorPos    : 1 ≤ s.factor
  factorMax    : s.factor ≤ 2 ^ 32
  offsetLt     : s.offset < 2 ^ 32
  availLe      : s.avail ≤ s.cfg.size
  selected     : s.ksel = selectKernel s.cfg s.sampleRate s.cutoff
  cutoffAbsent : s.cfg.freqAware = false → s.cutoff = 0
  accCanonical : accWf s.cfg.depth s.acc = true
  pcmCanonical : Memory.wf s.pcm = true
  lastErrCode  : s.lastErr.toNat ≤ 7
  errRecorded  : s.err ≠ 0 → s.lastErr ≠ 0
  uninitFresh  : s.ready = false →
    s.factor = 2 ^ 32 ∧ s.offset = 2 ^ 31 ∧ s.avail = 0 ∧ s.integrator = 0 ∧ s.acc = [] ∧ s.sampleRate = 0

/-- A command with the operands the host puts into ARG0 and ARG1 for it. -/
structure Command where
  instr : Instr
  arg0  : Word
  arg1  : Word
  deriving DecidableEq, Repr

/-- The state whose operand registers the host has written. -/
def State.withArgs (a0 a1 : Word) (s : State) : State := { s with arg0 := a0, arg1 := a1 }

/-- Running one command with its operands. -/
def issue (c : Command) (s : State) : Host.Outcome State Fault Refusal := exec c.instr (s.withArgs c.arg0 c.arg1)

/-- Running commands one after another. -/
def issueAll (cs : List Command) (s : State) : Host.Outcome State Fault Refusal :=
  match cs with
  | [] => .next s
  | c :: rest =>
    match issue c s with
    | .next t => issueAll rest t
    | .fault r => .fault r
    | .refused r => .refused r

/-- How many samples the commands make available in total: the sum of AVAIL's increases (R177). -/
def madeAvailable (cs : List Command) (s : State) : Nat :=
  match cs with
  | [] => 0
  | c :: rest =>
    match issue c s with
    | .next t => (t.avail - s.avail) + madeAvailable rest t
    | .fault _ => 0
    | .refused _ => 0

/-- The clock ticks the END_FRAMEs among the commands commit (R177). -/
def committedTicks (cs : List Command) : Nat :=
  match cs with
  | [] => 0
  | c :: rest => (if c.instr = .endFrame then c.arg0.toNat else 0) + committedTicks rest

/-- An ADD_DELTA with its operands. -/
def deltaCommand (time amplitude : Word) : Command := { instr := .addDelta, arg0 := time, arg1 := amplitude }

/-- The sum of the first `n` accumulator slots, modulo 2^64 (R148, R149). -/
def slotSum (acc : AccFile) (n : Nat) : Word := ((List.range n).map (accRead acc)).sum

/-- The integrator before sample k of a READ_SAMPLES from `s` (R202, R204): a sum of slots, less the leak of every sample
already written where the block was built with one. -/
def integratorBefore (s : State) (k : Nat) : Word :=
  match k with
  | 0 => s.integrator
  | k + 1 =>
    if s.cfg.leakShift = 0 then integratorBefore s k + accRead s.acc k
    else
      integratorBefore s k + accRead s.acc k
        - BitVec.ofInt 64 (sampleOf (integratorBefore s k) * 2 ^ (15 - s.cfg.leakShift))

/-- The command of a command line of R119, with ARG0 and ARG1 as the line's writes leave them in `s`. -/
def HostLine.command (line : HostLine) (s : State) : Option Command :=
  match line with
  | .setRates cr sr => some { instr := .setRates, arg0 := cr, arg1 := sr }
  | .setCutoff cut => some { instr := .setCutoff, arg0 := cut.setWidth 64, arg1 := s.arg1 }
  | .clear => some { instr := .clear, arg0 := s.arg0, arg1 := s.arg1 }
  | .clocksNeeded n => some { instr := .clocksNeeded, arg0 := n.setWidth 64, arg1 := s.arg1 }
  | .addDelta t d => some { instr := .addDelta, arg0 := t.setWidth 64, arg1 := d.signExtend 64 }
  | .endFrame t => some { instr := .endFrame, arg0 := t.setWidth 64, arg1 := s.arg1 }
  | .samplesAvail => some { instr := .samplesAvail, arg0 := s.arg0, arg1 := s.arg1 }
  | .readSamples st n base => some { instr := .readSamples st, arg0 := n.setWidth 64, arg1 := base }
  | .write _ _ => none
  | .read _ => none

end Sys2Proof.Machine
end

