-- ==== Sys2Proof/Certificates/Slice0/Obligations.lean ====
section
/-! DEFINITION. The statements about the block, for the provers: each formalises the rules of spec/ its docstring names. -/

open Sys2Proof Sys2Proof.Machine

/-! ### Command words -/

/-- R111's table (30_encoding.md), word by word, with the two words of READ_SAMPLES. -/
def Obligations.TableWordsDecodeToTheirCommands : Prop :=
  decode 0x01 = .ok .setRates ∧ decode 0x02 = .ok .setCutoff ∧ decode 0x03 = .ok .clear ∧
  decode 0x04 = .ok .clocksNeeded ∧ decode 0x05 = .ok .addDelta ∧ decode 0x06 = .ok .endFrame ∧
  decode 0x07 = .ok .samplesAvail ∧ decode 0x08 = .ok (.readSamples false) ∧ decode 0x108 = .ok (.readSamples true)

/-- R110 to R112: over all 2^64 words, the decoder reads a command from exactly one word, the one the encoder writes. -/
def Obligations.DecodingIsTheInverseOfEncoding : Prop :=
  ∀ (v : Word) (i : Instr), decode v = .ok i ↔ v = encode i

/-- R113: the illegal words, in arithmetic on the word itself, are rejected with ILLEGAL and nothing else happens; every
other word runs a command that the configuration has. -/
def Obligations.IllegalWordsAreRejected : Prop :=
  ∀ (v : Word) (s : State),
    let opc := v.toNat % 256
    let illegal := opc = 0 ∨ 9 ≤ opc ∨ 512 ≤ v.toNat ∨ (256 ≤ v.toNat ∧ opc ≠ 8) ∨ (opc = 2 ∧ s.cfg.freqAware = false)
    (illegal → execute v s = .next (reject .illegal s)) ∧
    (¬illegal → ∃ i, decode v = .ok i ∧ i.wellFormed s.cfg = true ∧ execute v s = exec i s)

/-- R82: the eight bytes of a word, bits [8k+7:8k] at offset k, and back. -/
def Obligations.WordBytesAreLittleEndian : Prop :=
  ∀ v : Word, wordOfBytes (bytesOfWord v) = some v ∧
    ∀ k, k < 8 → ((bytesOfWord v)[k]?.map BitVec.toNat) = some (v.toNat / 2 ^ (8 * k) % 256)

/-! ### Steps and accesses -/

/-- R88: when the next access writes a word to COMMAND and the word decodes to i, the step is exec of i, with the access
gone from the pending ones and nothing else done around it. -/
def Obligations.StepRunsTheWrittenCommand : Prop :=
  ∀ (s : State) (v : Word) (i : Instr) (rest : List HostAccess),
    s.cfg.legal = true → s.pending = .regWrite (s.cfg.blrsBase + 0x038) 8 v :: rest → decode v = .ok i →
    step s = exec i { s with pending := rest }

/-- The model's reading (log 12, DEDUCED) over its own list of pending accesses (log 2): a step with no access pending
keeps the whole state. It rests on the block waiting for host accesses after reset and having no power control. -/
def Obligations.BlockWaitsForAccesses : Prop :=
  ∀ s : State, s.cfg.legal = true → s.pending = [] → step s = .next s

/-- R221, R141: a parameter set out of range, or a bank that breaks R141, is refused and no access is performed. -/
def Obligations.IllegalConfigurationIsRefused : Prop :=
  ∀ s : State, (s.cfg.size = 0 ∨ 2 ^ 20 < s.cfg.size ∨ s.cfg.maxTaps = 0 ∨ 256 < s.cfg.maxTaps ∨ 256 < s.cfg.headroom ∨
      15 < s.cfg.leakShift ∨
      (∃ i, let k := KernelBank.kr s.cfg.bank i
        k = [] ∨ s.cfg.maxTaps < k.length ∨ k.sum ≠ 32768 ∨ k.reverse ≠ k ∨ ∃ c ∈ k, c < -2 ^ 31 ∨ 2 ^ 31 ≤ c) ∨
      (∃ e ∈ s.cfg.bank.kc, e.cutoff = 0 ∨ e.kernel = [] ∨ s.cfg.maxTaps < e.kernel.length ∨ e.kernel.sum ≠ 32768 ∨
        e.kernel.reverse ≠ e.kernel ∨ ∃ c ∈ e.kernel, c < -2 ^ 31 ∨ 2 ^ 31 ≤ c)) →
    step s = .refused .illegalConfiguration

/-- Every command and, in a legal configuration, every step answers a next state: no rejection, no operand and no access
ends a run (R88 "completes the write", R224, R227). -/
def Obligations.NoCommandEndsTheRun : Prop :=
  (∀ (i : Instr) (s : State), ∃ t, exec i s = .next t) ∧ ∀ s : State, s.cfg.legal = true → ∃ t, step s = .next t

/-- R86: a well-formed register read, at every offset of the window, changes nothing but the pending accesses and the
response; and R33 to R48, R57: what a read of each register of the map answers, by its offset. -/
def Obligations.RegisterReadsHaveNoSideEffect : Prop :=
  ∀ (s : State) (rest : List HostAccess), s.cfg.legal = true →
    let readAnswers := fun (off : Nat) (v : Word) =>
      step { s with pending := .regRead (s.cfg.blrsBase + off) 8 :: rest } =
        .next { s with pending := rest, response := .word v }
    (∀ off, off < 2 ^ 24 → off % 8 = 0 → ∃ v, readAnswers off v) ∧
    readAnswers 0x000 (idWord s.cfg) ∧ readAnswers 0x008 (configWord s.cfg) ∧
    readAnswers 0x010 (statusWord s) ∧ readAnswers 0x018 (irqEnWord s) ∧
    readAnswers 0x020 s.arg0 ∧ readAnswers 0x028 s.arg1 ∧ readAnswers 0x030 s.result ∧ readAnswers 0x038 0 ∧
    readAnswers 0x040 (BitVec.ofNat 64 s.factor) ∧ readAnswers 0x048 (BitVec.ofNat 64 s.offset) ∧
    readAnswers 0x050 (BitVec.ofNat 64 s.avail) ∧ readAnswers 0x058 s.integrator ∧
    readAnswers 0x060 s.sampleRate ∧ readAnswers 0x068 (kselWord s.ksel) ∧
    readAnswers 0x070 (s.cutoff.setWidth 64) ∧ readAnswers 0x078 s.pcmLen ∧
    readAnswers 0x080 (BitVec.ofNat 64 s.cfg.size) ∧
    readAnswers 0x088 (BitVec.ofNat 64 (s.cfg.size + s.cfg.maxTaps + s.cfg.headroom))

/-- R84, R220, R224: an access of another size or at an offset that is no multiple of 8 records BUS (bit 13, code 6); a
write does nothing else, a read returns 0. -/
def Obligations.MalformedAccessesRecordBus : Prop :=
  ∀ (s : State) (off n : Nat) (v : Word) (rest : List HostAccess),
    s.cfg.legal = true → off < 2 ^ 24 → n ≠ 8 ∨ off % 8 ≠ 0 →
    (s.pending = .regWrite (s.cfg.blrsBase + off) n v :: rest →
      step s = .next { s with pending := rest, err := s.err ||| 0x20#7, lastErr := 6 }) ∧
    (s.pending = .regRead (s.cfg.blrsBase + off) n :: rest →
      step s = .next { s with pending := rest, err := s.err ||| 0x20#7, lastErr := 6, response := .word 0 })

/-- R84: an access outside the window of 2^24 bytes does not reach the block, whatever its size. That a read there leaves
the host without a response of the block is the model's choice (log 5). -/
def Obligations.AccessesOutsideTheWindowDoNotReachTheBlock : Prop :=
  ∀ (s : State) (addr n : Nat) (v : Word) (rest : List HostAccess),
    s.cfg.legal = true → addr < s.cfg.blrsBase ∨ s.cfg.blrsBase + 2 ^ 24 ≤ addr →
    (s.pending = .regWrite addr n v :: rest → step s = .next { s with pending := rest }) ∧
    (s.pending = .regRead addr n :: rest → step s = .next { s with pending := rest, response := .nothing })

/-- R56: a write to a reserved offset or a read-only register changes nothing and is no error. The writable offsets are
STATUS, IRQ_EN, ARG0, ARG1, COMMAND and PCM_LEN (R57). -/
def Obligations.ReadOnlyAndReservedWritesAreIgnored : Prop :=
  ∀ (s : State) (off : Nat) (v : Word) (rest : List HostAccess),
    s.cfg.legal = true → off < 2 ^ 24 → off % 8 = 0 → off ∉ [0x010, 0x018, 0x020, 0x028, 0x038, 0x078] →
    s.pending = .regWrite (s.cfg.blrsBase + off) 8 v :: rest → step s = .next { s with pending := rest }

/-- R56, R57: COMMAND and reserved offsets read 0, and reserved bits of a register read 0. -/
def Obligations.ReservedOffsetsAndBitsReadZero : Prop :=
  ∀ s : State,
    readSlot (windowSlot s.cfg 0x038) s = 0 ∧
    (∀ off, 0x090 ≤ off → off < 0x1000 → readSlot (windowSlot s.cfg off) s = 0) ∧
    (∀ off, 0x1000 + 8 * s.cfg.depth ≤ off → readSlot (windowSlot s.cfg off) s = 0) ∧
    readSlot (windowSlot s.cfg 0x000) s &&& 0x00000000FFFC0000#64 = 0 ∧
    readSlot (windowSlot s.cfg 0x008) s &&& 0xFF00000000000000#64 = 0 ∧
    readSlot (windowSlot s.cfg 0x010) s &&& 0xFFFFFFFFFF0080FE#64 = 0 ∧
    readSlot (windowSlot s.cfg 0x018) s &&& 0xFFFFFFFFFFFF80FF#64 = 0 ∧
    readSlot (windowSlot s.cfg 0x068) s &&& 0xFFFFFFFF000000FC#64 = 0 ∧
    readSlot (windowSlot s.cfg 0x070) s &&& 0xFFFFFFFF00000000#64 = 0

/-- R36, R37, R47: a write of ARG0, ARG1 or PCM_LEN stores all 64 bits, one of IRQ_EN its bits [14:8]; the read after it
returns what was stored, and nothing else has changed. -/
def Obligations.HostRegistersHoldWhatIsWritten : Prop :=
  ∀ (s : State) (v : Word) (rest : List HostAccess), s.cfg.legal = true →
    let twoSteps := fun off : Nat => core.run 2
      { s with pending := .regWrite (s.cfg.blrsBase + off) 8 v :: .regRead (s.cfg.blrsBase + off) 8 :: rest }
    twoSteps 0x020 = .next { s with pending := rest, arg0 := v, response := .word v } ∧
    twoSteps 0x028 = .next { s with pending := rest, arg1 := v, response := .word v } ∧
    twoSteps 0x078 = .next { s with pending := rest, pcmLen := v, response := .word v } ∧
    twoSteps 0x018 = .next { s with
      pending := rest, irqEn := v.extractLsb' 8 7, response := .word (v &&& 0x0000000000007F00#64) }

/-- R35: the fields of STATUS; a write of v clears exactly the ERR bits that are 1 in v[14:8], so the word reads as before
but for those, and nothing else changes. -/
def Obligations.StatusIsWriteOneToClear : Prop :=
  ∀ (s : State) (v : Word) (rest : List HostAccess), s.cfg.legal = true →
    (statusWord s).getLsbD 0 = s.ready ∧
    (∀ c : Cause, (statusWord s).getLsbD (7 + c.code) = s.err.getLsbD (c.code - 1)) ∧
    (statusWord s).extractLsb' 16 8 = s.lastErr ∧
    ∃ t, core.run 2
        { s with pending := .regWrite (s.cfg.blrsBase + 0x010) 8 v :: .regRead (s.cfg.blrsBase + 0x010) 8 :: rest } =
      .next t ∧
      t = { s with pending := rest, err := t.err, response := .word (statusWord s &&& ~~~(v &&& 0x0000000000007F00#64)) } ∧
      statusWord t = statusWord s &&& ~~~(v &&& 0x0000000000007F00#64)

/-- R49, R57: offset `0x1000 + 8*j` reads slot j for every j < DEPTH, and every such offset lies in the window. -/
def Obligations.AccWindowReadsTheSlots : Prop :=
  ∀ (s : State) (j : Nat) (rest : List HostAccess),
    s.cfg.legal = true → j < s.cfg.depth → s.pending = .regRead (s.cfg.blrsBase + 0x1000 + 8 * j) 8 :: rest →
    step s = .next { s with pending := rest, response := .word (accRead s.acc j) }

/-- R33, R34: the fields of ID and CONFIG, read through the window; ID's value for `FREQ_AWARE` true and `LEAK_SHIFT = 0`;
and both are constants: a write leaves the state as it is. -/
def Obligations.IdentificationRegistersHoldTheParameters : Prop :=
  ∀ s : State, s.cfg.legal = true →
    (∃ w : Word, readSlot (windowSlot s.cfg 0x000) s = w ∧ w.toNat % 2 ^ 16 = 7 ∧
      w.getLsbD 16 = s.cfg.freqAware ∧ w.getLsbD 17 = decide (s.cfg.leakShift ≠ 0) ∧
      w.toNat / 2 ^ 18 % 2 ^ 14 = 0 ∧ w.toNat / 2 ^ 32 = 0x424C5253 ∧
      (s.cfg.freqAware = true → s.cfg.leakShift = 0 → w = 0x424C525300010007#64)) ∧
    (∃ w : Word, readSlot (windowSlot s.cfg 0x008) s = w ∧ w.toNat % 2 ^ 8 = 32 ∧ w.toNat / 2 ^ 8 % 2 ^ 8 = 15 ∧
      w.toNat / 2 ^ 16 % 2 ^ 16 = s.cfg.maxTaps ∧ w.toNat / 2 ^ 32 % 2 ^ 16 = s.cfg.headroom ∧
      w.toNat / 2 ^ 48 % 2 ^ 8 = s.cfg.leakShift ∧ w.toNat / 2 ^ 56 = 0) ∧
    ∀ v : Word, writeSlot (windowSlot s.cfg 0x000) v s = .next s ∧ writeSlot (windowSlot s.cfg 0x008) v s = .next s

/-- R45, R144, R146: in a state of the invariant, KSEL reads KIND 0 for the Dirac kernel, 1 for a rate kernel and 2 for a
cutoff kernel, the index of the recorded rate (0xFF for none) and the tap count of the active kernel. -/
def Obligations.KselReadsTheActiveKernel : Prop :=
  ∀ s : State, s.Inv →
    (kselWord s.ksel).toNat % 4 =
      (match s.ksel.source with
        | .dirac _ => 0
        | .rate _ => 1
        | .cutoff _ => 2) ∧
    (kselWord s.ksel).toNat / 2 ^ 2 % 2 ^ 6 = 0 ∧
    (kselWord s.ksel).toNat / 2 ^ 8 % 2 ^ 8 = ((rateIndexOf s.sampleRate).map rateNumber).getD 0xFF ∧
    (kselWord s.ksel).toNat / 2 ^ 16 = (activeKernel s).length

/-- R230: `irq` is 1 exactly when some cause is both recorded in ERR and enabled in IRQ_EN, and a STATUS write of ones to
every ERR bit drives it to 0. -/
def Obligations.InterruptIsTheEnabledErrorLevel : Prop :=
  ∀ s : State,
    (s.irq = true ↔ ∃ c : Cause, s.err.getLsbD (c.code - 1) = true ∧ s.irqEn.getLsbD (c.code - 1) = true) ∧
    ∀ t, writeSlot .status 0x7F00 s = .next t → t.irq = false

/-- R81, R82, R89: a host store of an element of its own array is what its next load returns, and only the element's two
bytes have changed. -/
def Obligations.HostLoadReturnsTheStoredElement : Prop :=
  ∀ (s : State) (idx : Word) (v : BitVec 16) (rest : List HostAccess),
    s.cfg.legal = true → Memory.wf s.pcm = true →
    ∃ t, core.run 2 { s with pending := .pcmStore idx v :: .pcmLoad idx :: rest } = .next t ∧
      t = { s with pending := rest, pcm := t.pcm, response := .sample v } ∧
      ∀ a, a ≠ pcmAddress s.cfg idx.toNat → a ≠ pcmAddress s.cfg idx.toNat + 1 →
        Memory.readByte t.pcm a = Memory.readByte s.pcm a

/-! ### Reset and the invariant -/

/-- R260, R261: one step of asserted reset gives every register the reset value of the table and every slot 0, `irq` is 0,
and no byte of the host's PCM array changes. -/
def Obligations.ResetGivesTheTableOfResetValues : Prop :=
  ∀ (s : State) (rest : List HostAccess), s.cfg.legal = true → s.pending = .reset :: rest →
    ∃ t, step s = .next t ∧ t.cfg = s.cfg ∧ t.pending = rest ∧ t.ready = false ∧ t.irq = false ∧
      (∀ j, accRead t.acc j = 0) ∧ (∀ a, Memory.readByte t.pcm a = Memory.readByte s.pcm a) ∧
      readSlot .status t = 0 ∧ readSlot .irqEn t = 0 ∧ readSlot .arg0 t = 0 ∧ readSlot .arg1 t = 0 ∧
      readSlot .result t = 0 ∧ readSlot .factor t = 0x100000000#64 ∧ readSlot .offset t = 0x80000000#64 ∧
      readSlot .avail t = 0 ∧ readSlot .integrator t = 0 ∧ readSlot .sampleRate t = 0 ∧
      readSlot .ksel t = 0x1FF00#64 ∧ readSlot .cutoff t = 0 ∧ readSlot .pcmLen t = 0

/-- R51 at reset, in every legal configuration. -/
def Obligations.ResetMeetsTheInvariant : Prop :=
  ∀ cfg : Config, cfg.legal = true → (State.resetOf cfg).Inv

/-- R51 and the model's canonical forms: every step from a state of the invariant gives a state of the invariant. -/
def Obligations.EveryStepKeepsTheInvariant : Prop :=
  ∀ s t : State, s.Inv → step s = .next t → t.Inv

/-- R50: READY is 0 after reset; a SET_RATES that is not rejected sets it; only a COMMAND write of SET_RATES can set it,
and only reset can clear it. -/
def Obligations.ReadyIsSetBySetRatesAndClearedByReset : Prop :=
  (∀ cfg : Config, (State.resetOf cfg).ready = false) ∧
  (∀ s t : State, exec .setRates s = .next t → t ≠ reject .rate s → t.ready = true) ∧
  (∀ s t : State, step s = .next t → s.ready = false → t.ready = true →
    ∃ v rest, s.pending = .regWrite (s.cfg.blrsBase + 0x038) 8 v :: rest ∧ decode v = .ok .setRates) ∧
  (∀ s t : State, step s = .next t → s.ready = true → t.ready = false → ∃ rest, s.pending = .reset :: rest)

/-- The frame of all eight commands: which field each may write (R37, R38, R40 to R46, R49, R81 and each command's "State
written"). A field not named for a command keeps its value, the whole PCM array among them. -/
def Obligations.CommandsWriteOnlyTheirFields : Prop :=
  ∀ (i : Instr) (s t : State), exec i s = .next t →
    (t.factor ≠ s.factor ∨ t.sampleRate ≠ s.sampleRate ∨ t.ready ≠ s.ready → i = .setRates) ∧
    (t.ksel ≠ s.ksel → i = .setRates ∨ i = .setCutoff) ∧
    (t.cutoff ≠ s.cutoff → i = .setCutoff) ∧
    (t.offset ≠ s.offset → i = .clear ∨ i = .endFrame) ∧
    (t.avail ≠ s.avail → i = .clear ∨ i = .endFrame ∨ ∃ st, i = .readSamples st) ∧
    (t.integrator ≠ s.integrator → i = .clear ∨ ∃ st, i = .readSamples st) ∧
    (t.acc ≠ s.acc → i = .clear ∨ i = .addDelta ∨ ∃ st, i = .readSamples st) ∧
    (t.result ≠ s.result → i = .clocksNeeded ∨ i = .samplesAvail ∨ ∃ st, i = .readSamples st) ∧
    ((∃ a, Memory.readByte t.pcm a ≠ Memory.readByte s.pcm a) → ∃ st, i = .readSamples st) ∧
    t.arg0 = s.arg0 ∧ t.arg1 = s.arg1 ∧ t.irqEn = s.irqEn ∧ t.pcmLen = s.pcmLen ∧ t.cfg = s.cfg ∧
    t.pending = s.pending ∧ t.response = s.response

/-- R40, R44 over whole steps: FACTOR and SAMPLE_RATE change only by a COMMAND write of SET_RATES or by reset. -/
def Obligations.OnlySetRatesOrResetChangesTheFactor : Prop :=
  ∀ s t : State, step s = .next t → t.factor ≠ s.factor ∨ t.sampleRate ≠ s.sampleRate →
    (∃ rest, s.pending = .reset :: rest) ∨
    ∃ v rest, s.pending = .regWrite (s.cfg.blrsBase + 0x038) 8 v :: rest ∧ decode v = .ok .setRates

/-! ### Rejections -/

/-- R224: a rejection with cause code n sets bit n-1 of ERR, keeps its other bits, records n in LAST_ERR and changes
nothing else; and whenever a command changes ERR or LAST_ERR, that is all it has done. -/
def Obligations.RejectionsArePrecise : Prop :=
  (∀ (c : Cause) (s : State),
    reject c s = { s with err := (reject c s).err, lastErr := BitVec.ofNat 8 c.code } ∧
    ∀ k, k < 7 → (reject c s).err.getLsbD k = (s.err.getLsbD k || decide (k = c.code - 1))) ∧
  (∀ (i : Instr) (s t : State), exec i s = .next t → t.err ≠ s.err ∨ t.lastErr ≠ s.lastErr → ∃ c, t = reject c s)

/-- R222: in the Uninitialized state ADD_DELTA, END_FRAME and CLOCKS_NEEDED with a nonzero amplitude, duration or count
are rejected with UNINIT, and the other five commands never are. -/
def Obligations.UninitializedStateGatesThreeCommands : Prop :=
  ∀ s : State, s.ready = false →
    (s.arg0.toNat < 2 ^ 32 → -2 ^ 31 ≤ s.arg1.toInt → s.arg1.toInt < 2 ^ 31 → s.arg1 ≠ 0 →
      exec .addDelta s = .next (reject .uninit s)) ∧
    (0 < s.arg0.toNat → s.arg0.toNat < 2 ^ 32 →
      exec .endFrame s = .next (reject .uninit s) ∧ exec .clocksNeeded s = .next (reject .uninit s)) ∧
    ∀ (i : Instr) (t : State), i = .setRates ∨ i = .setCutoff ∨ i = .clear ∨ i = .samplesAvail ∨ (∃ st, i = .readSamples st) →
      s.err = 0 → exec i s = .next t → t.err.getLsbD 1 = false

/-- R115, R116: an operand out of its range is rejected with OPERAND before anything else is looked at. -/
def Obligations.OperandsOutOfRangeAreRejected : Prop :=
  ∀ s : State,
    (2 ^ 32 ≤ s.arg0.toNat → ∀ i : Instr,
      (i = .setCutoff ∧ s.cfg.freqAware = true) ∨ i = .clocksNeeded ∨ i = .addDelta ∨ i = .endFrame ∨
        (∃ st, i = .readSamples st) →
      exec i s = .next (reject .operand s)) ∧
    (s.arg1.toInt < -2 ^ 31 ∨ 2 ^ 31 ≤ s.arg1.toInt → exec .addDelta s = .next (reject .operand s))

/-- R160, R225: zero amplitude, duration and counts are successful no-ops, in both lifecycle states; CLOCKS_NEEDED and
READ_SAMPLES answer 0. -/
def Obligations.ZeroOperandsAreNoOps : Prop :=
  ∀ s : State,
    (s.arg0.toNat < 2 ^ 32 → s.arg1 = 0 → exec .addDelta s = .next s) ∧
    (s.arg0 = 0 → exec .endFrame s = .next s ∧ exec .clocksNeeded s = .next { s with result := 0 } ∧
      ∀ st, exec (.readSamples st) s = .next { s with result := 0 }) ∧
    (s.arg0.toNat < 2 ^ 32 → s.avail = 0 → ∀ st, exec (.readSamples st) s = .next { s with result := 0 })

/-! ### Rates and kernels -/

/-- R161, R163, R164: for finite positive rates whose exact quotient has a ceiling of at most 2^32, SET_RATES completes:
FACTOR is the ceiling of `2^32 * rat(sample_rate) / rat(clock_rate)` in exact rational arithmetic, the rate is recorded,
READY is set, the kernel is selected, and nothing else changes (the buffered data in particular). -/
def Obligations.SetRatesTakesTheExactCeiling : Prop :=
  ∀ s : State,
    let q : ℚ := 2 ^ 32 * binary64Rat s.arg1 / binary64Rat s.arg0
    isFinite64 s.arg0 = true → isFinite64 s.arg1 = true → 0 < binary64Rat s.arg0 → 0 < binary64Rat s.arg1 →
    ⌈q⌉ ≤ 2 ^ 32 →
    exec .setRates s = .next { s with
      factor := ⌈q⌉.toNat, sampleRate := s.arg1, ready := true, ksel := selectKernel s.cfg s.arg1 s.cutoff }

/-- R162: a rate that is not finite or not positive, or a factor above 2^32, is rejected with RATE. -/
def Obligations.SetRatesRejectsInvalidRates : Prop :=
  ∀ s : State,
    isFinite64 s.arg0 = false ∨ isFinite64 s.arg1 = false ∨ binary64Rat s.arg0 ≤ 0 ∨ binary64Rat s.arg1 ≤ 0 ∨
      2 ^ 32 < ⌈(2 ^ 32 * binary64Rat s.arg1 / binary64Rat s.arg0 : ℚ)⌉ →
    exec .setRates s = .next (reject .rate s)

/-- R143, R144: a word has a rate index exactly when it is finite and its real value is that rate, which is so for exactly
one bit pattern each, the one of R143's table. -/
def Obligations.RateIndexIsExactEquality : Prop :=
  ∀ (sr : Word) (i : RateIdx),
    (rateIndexOf sr = some i ↔ isFinite64 sr = true ∧ binary64Rat sr = rateHz i) ∧
    (rateIndexOf sr = some i ↔
      sr = match i with
        | .r48000 => 0x40E7700000000000#64
        | .r96000 => 0x40F7700000000000#64
        | .r192000 => 0x4107700000000000#64
        | .r384000 => 0x4117700000000000#64
        | .r768000 => 0x4127700000000000#64)

/-- R145, R146: the selected source, and in every case TAPS and the active kernel. The Dirac kernel is one tap of 32768
(R142). -/
def Obligations.SelectionFollowsRateAndCutoff : Prop :=
  ∀ (s : State), s.ksel = selectKernel s.cfg s.sampleRate s.cutoff →
    (rateIndexOf s.sampleRate = none → s.ksel.source = .dirac none ∧ activeKernel s = [32768]) ∧
    (∀ i, rateIndexOf s.sampleRate = some i →
      (s.cutoff = 0 → s.ksel.source = .rate i ∧ activeKernel s = KernelBank.kr s.cfg.bank i) ∧
      (∀ k, s.cutoff ≠ 0 → s.cfg.freqAware = true → KernelBank.kcAt s.cfg.bank i s.cutoff = some k →
        s.ksel.source = .cutoff i ∧ activeKernel s = k) ∧
      (s.cutoff ≠ 0 → s.cfg.freqAware = false ∨ KernelBank.kcAt s.cfg.bank i s.cutoff = none →
        s.ksel.source = .dirac (some i) ∧ activeKernel s = [32768])) ∧
    s.ksel.taps = (activeKernel s).length

/-- R147: SET_CUTOFF completes with the cutoff recorded and the kernel reselected, nothing else changes, and the same
cutoff twice leaves the state as once; without `FREQ_AWARE` it is ILLEGAL. -/
def Obligations.SetCutoffReselectsTheKernel : Prop :=
  ∀ s : State,
    (s.cfg.freqAware = true → s.arg0.toNat < 2 ^ 32 →
      ∃ t, exec .setCutoff s = .next t ∧ t.cutoff.toNat = s.arg0.toNat ∧
        t = { s with cutoff := t.cutoff, ksel := selectKernel s.cfg s.sampleRate t.cutoff } ∧
        exec .setCutoff t = .next t) ∧
    (s.cfg.freqAware = false → exec .setCutoff s = .next (reject .illegal s))

/-! ### The accumulator -/

/-- R165: CLEAR completes in both lifecycle states: every slot 0, OFFSET half of FACTOR, AVAIL and INTEGRATOR 0, nothing
else; CLEAR twice is CLEAR once, and SAMPLES_AVAIL then answers 0. -/
def Obligations.ClearZeroesTheBuffer : Prop :=
  ∀ s : State, ∃ t, exec .clear s = .next t ∧ (∀ j, accRead t.acc j = 0) ∧
    t = { s with acc := t.acc, offset := s.factor / 2, avail := 0, integrator := 0 } ∧
    exec .clear t = .next t ∧ exec .samplesAvail t = .next { t with result := 0 }

/-- R166: for 1 to SIZE - AVAIL samples, CLOCKS_NEEDED completes with RESULT the least tick count k whose position
`k * factor + offset` reaches n samples, and changes nothing else; above that it is rejected with CAPACITY. -/
def Obligations.ClocksNeededAnswersTheLeastTickCount : Prop :=
  ∀ s : State, s.Inv → s.ready = true → 0 < s.arg0.toNat → s.arg0.toNat < 2 ^ 32 →
    (s.avail + s.arg0.toNat ≤ s.cfg.size →
      ∃ t, exec .clocksNeeded s = .next t ∧ t = { s with result := t.result } ∧
        IsLeast {k : ℕ | s.arg0.toNat * 2 ^ 32 ≤ k * s.factor + s.offset} t.result.toNat) ∧
    (s.cfg.size < s.avail + s.arg0.toNat → exec .clocksNeeded s = .next (reject .capacity s))

/-- R167: when CLOCKS_NEEDED answers k for n >= 1 samples, k is at least 1; END_FRAME of k, where k fits its operand, is
accepted and makes at least n samples available; and END_FRAME of k - 1, where that fits (k up to 2^32), is accepted and
makes at most n - 1. -/
def Obligations.ClocksNeededIsMinimalForEndFrame : Prop :=
  ∀ s t : State, s.Inv → s.ready = true → 0 < s.arg0.toNat → s.arg0.toNat < 2 ^ 32 →
    s.avail + s.arg0.toNat ≤ s.cfg.size → exec .clocksNeeded s = .next t →
    0 < t.result.toNat ∧
    (t.result.toNat < 2 ^ 32 →
      ∃ u, exec .endFrame { s with arg0 := t.result } = .next u ∧ u.err = s.err ∧ u.lastErr = s.lastErr ∧
        s.avail + s.arg0.toNat ≤ u.avail) ∧
    (t.result.toNat ≤ 2 ^ 32 →
      ∃ u, exec .endFrame { s with arg0 := t.result - 1 } = .next u ∧ u.err = s.err ∧ u.lastErr = s.lastErr ∧
        u.avail ≤ s.avail + (s.arg0.toNat - 1))

/-- R170, R171, R172: an ADD_DELTA whose taps all fall below DEPTH completes; slot base + i gains `d * c[i]` modulo 2^64,
with base `avail + ((time * factor + offset) >> 32)`; every other slot and every other field is as before. -/
def Obligations.AddDeltaSpreadsTheKernel : Prop :=
  ∀ s : State, s.Inv → s.ready = true → s.arg0.toNat < 2 ^ 32 → -2 ^ 31 ≤ s.arg1.toInt → s.arg1.toInt < 2 ^ 31 →
    s.arg1 ≠ 0 →
    let base := s.avail + (s.arg0.toNat * s.factor + s.offset) / 2 ^ 32
    let k := activeKernel s
    base + k.length ≤ s.cfg.depth →
    ∃ t, exec .addDelta s = .next t ∧ t = { s with acc := t.acc } ∧
      (∀ i (h : i < k.length), accRead t.acc (base + i) = accRead s.acc (base + i) + BitVec.ofInt 64 (s.arg1.toInt * k[i])) ∧
      (∀ j, j < base ∨ base + k.length ≤ j → accRead t.acc j = accRead s.acc j)

/-- R173: a delta with any tap at or beyond slot DEPTH is rejected with CAPACITY. -/
def Obligations.DeltaBeyondTheBufferIsRejected : Prop :=
  ∀ s : State, s.ready = true → s.arg0.toNat < 2 ^ 32 → -2 ^ 31 ≤ s.arg1.toInt → s.arg1.toInt < 2 ^ 31 → s.arg1 ≠ 0 →
    (∃ i, i < (activeKernel s).length ∧
      s.cfg.depth ≤ s.avail + (s.arg0.toNat * s.factor + s.offset) / 2 ^ 32 + i) →
    exec .addDelta s = .next (reject .capacity s)

/-- R174: any two orders of the same ADD_DELTAs in one frame leave the same accumulator and the same of everything else,
provided no ADD_DELTA of the first order is rejected (R228: no ERR bit is set at its end); then none of the other is. -/
def Obligations.DeltaOrderDoesNotMatter : Prop :=
  ∀ (s t : State) (ds es : List (Word × Word)), s.Inv → ds.Perm es →
    issueAll (ds.map fun d => deltaCommand d.1 d.2) s = .next t → t.Clean →
    ∃ u, issueAll (es.map fun d => deltaCommand d.1 d.2) s = .next u ∧ u.Clean ∧
      u = { t with arg0 := u.arg0, arg1 := u.arg1 }

/-- R148: an ADD_DELTA of amplitude d whose taps all fall below DEPTH completes, and its slots then sum to `d * 2^15` more
than before, modulo 2^64. Sticky ERR bits make no difference (R227). -/
def Obligations.DeltaHasUnitGain : Prop :=
  ∀ s : State, s.Inv → s.ready = true → s.arg0.toNat < 2 ^ 32 → -2 ^ 31 ≤ s.arg1.toInt → s.arg1.toInt < 2 ^ 31 →
    s.avail + (s.arg0.toNat * s.factor + s.offset) / 2 ^ 32 + (activeKernel s).length ≤ s.cfg.depth →
    ∃ t, exec .addDelta s = .next t ∧ t = { s with acc := t.acc } ∧
      slotSum t.acc s.cfg.depth = slotSum s.acc s.cfg.depth + BitVec.ofInt 64 (s.arg1.toInt * 2 ^ 15)

/-- R149: after one ADD_DELTA of amplitude d into a silent buffer, all taps below DEPTH, the sum of the slots up to
base + m, which the output stage forms, is `d * (c[0] + ... + c[m])`, and 0 below base. -/
def Obligations.SlotsSumToTheStepResponse : Prop :=
  ∀ s : State, s.Inv → s.ready = true → s.arg0.toNat < 2 ^ 32 → -2 ^ 31 ≤ s.arg1.toInt → s.arg1.toInt < 2 ^ 31 →
    (∀ j, accRead s.acc j = 0) →
    let base := s.avail + (s.arg0.toNat * s.factor + s.offset) / 2 ^ 32
    base + (activeKernel s).length ≤ s.cfg.depth →
    ∃ t, exec .addDelta s = .next t ∧ (∀ n, n ≤ base → slotSum t.acc n = 0) ∧
      ∀ m, slotSum t.acc (base + m) = BitVec.ofInt 64 (s.arg1.toInt * ((activeKernel s).take m).sum)

/-- R207: an ADD_DELTA, accepted or not, leaves every slot below AVAIL as it was, so an available sample keeps its
contributions. -/
def Obligations.AvailableSamplesAreFinal : Prop :=
  ∀ s t : State, s.Inv → exec .addDelta s = .next t → ∀ j, j < s.avail → accRead t.acc j = accRead s.acc j

/-- R176: an END_FRAME of 1 to 2^32 - 1 ticks that fits SIZE completes: whole samples and fraction together grow by
`t * factor`, the fraction stays below one sample, and nothing else changes; otherwise it is rejected with CAPACITY. -/
def Obligations.EndFrameCommitsTheFrame : Prop :=
  ∀ s : State, s.ready = true → 0 < s.arg0.toNat → s.arg0.toNat < 2 ^ 32 →
    let made := (s.arg0.toNat * s.factor + s.offset) / 2 ^ 32
    (s.avail + made ≤ s.cfg.size →
      ∃ t, exec .endFrame s = .next t ∧ t = { s with avail := s.avail + made, offset := t.offset } ∧ t.offset < 2 ^ 32 ∧
        t.avail * 2 ^ 32 + t.offset = s.avail * 2 ^ 32 + s.offset + s.arg0.toNat * s.factor) ∧
    (s.cfg.size < s.avail + made → exec .endFrame s = .next (reject .capacity s))

/-- R177, first half: from a state whose OFFSET is half of FACTOR, after any commands without SET_RATES and CLEAR, none
rejected, the samples made available number `floor((N * factor + offset) / 2^32)` for the N ticks committed, whatever was
read in between. -/
def Obligations.LongRunCountIsExact : Prop :=
  ∀ (s t : State) (cs : List Command), s.Inv → s.offset = s.factor / 2 →
    (∀ c ∈ cs, c.instr ≠ .setRates ∧ c.instr ≠ .clear) → issueAll cs s = .next t → t.Clean →
    madeAvailable cs s = (committedTicks cs * s.factor + s.factor / 2) / 2 ^ 32

/-- R177, second half: with the factor SET_RATES computes for the recorded rates, that count minus the exact
`N * sample_rate / clock_rate` lies in `(-1, N / 2^32 + 1/2]`. -/
def Obligations.LongRunDriftIsBounded : Prop :=
  ∀ (cr sr : Word) (n : Nat), isFinite64 cr = true → isFinite64 sr = true → 0 < binary64Rat cr → 0 < binary64Rat sr →
    factorOf cr sr ≤ 2 ^ 32 →
    let made : ℚ := ((n * factorOf cr sr + factorOf cr sr / 2) / 2 ^ 32 : ℕ)
    let ideal : ℚ := n * binary64Rat sr / binary64Rat cr
    made - ideal ≤ n / 2 ^ 32 + 1 / 2 ∧ -1 < made - ideal

/-- R180: SAMPLES_AVAIL completes in every state and writes RESULT alone; in a state of the invariant RESULT is AVAIL,
zero-extended. -/
def Obligations.SamplesAvailAnswersAvail : Prop :=
  ∀ s : State, ∃ t, exec .samplesAvail s = .next t ∧ t = { s with result := t.result } ∧
    t.result = BitVec.ofNat 64 s.avail ∧ (s.Inv → t.result.toNat = s.avail)

/-! ### The output reader -/

/-- R200, R202 and R82: a READ_SAMPLES whose last index is below PCM_LEN completes. With c = min(count, avail) >= 1
and stride 1 or 2: element base + k*stride holds, low byte first, the clamped sample of the integrator before slot k is
added; no other byte changes; INTEGRATOR has taken in c slots; AVAIL is less by c, RESULT is c, and nothing but the
retired accumulator else changes. Where the block is built with a leak, the integrator (integratorBefore) follows R204's
form of it, which the spec marks as its general knowledge: there this is the model's reading (log 20, PRESUMED). -/
def Obligations.ReadSamplesWritesTheIntegratedSamples : Prop :=
  ∀ (st : Bool) (s : State), s.Inv → s.arg0.toNat < 2 ^ 32 →
    let c := min s.arg0.toNat s.avail
    let stride := if st then 2 else 1
    0 < c → s.arg1.toNat + (c - 1) * stride < s.pcmLen.toNat →
    ∃ t, exec (.readSamples st) s = .next t ∧
      t = { s with
        integrator := integratorBefore s c, acc := t.acc, avail := s.avail - c, result := BitVec.ofNat 64 c, pcm := t.pcm } ∧
      (∀ k, k < c →
        let a := s.cfg.pcmBase + 2 * (s.arg1.toNat + k * stride)
        let smp : BitVec 16 := BitVec.ofInt 16 (max (-32768) (min 32767 ((integratorBefore s k).toInt / 2 ^ 15)))
        Memory.readByte t.pcm a = some (smp.extractLsb' 0 8) ∧ Memory.readByte t.pcm (a + 1) = some (smp.extractLsb' 8 8)) ∧
      ∀ a, (∀ k, k < c → a ≠ s.cfg.pcmBase + 2 * (s.arg1.toNat + k * stride) ∧
          a ≠ s.cfg.pcmBase + 2 * (s.arg1.toNat + k * stride) + 1) →
        Memory.readByte t.pcm a = Memory.readByte s.pcm a

/-- R202 for a block without leak: a READ_SAMPLES that is not rejected, of c = min(count, avail) samples, completes with
INTEGRATOR the integrator at its start plus the first c slots, modulo 2^64. -/
def Obligations.IntegratorIsACumulativeSum : Prop :=
  ∀ (st : Bool) (s : State), s.cfg.leakShift = 0 → s.arg0.toNat < 2 ^ 32 →
    let c := min s.arg0.toNat s.avail
    c = 0 ∨ s.arg1.toNat + (c - 1) * (if st then 2 else 1) < s.pcmLen.toNat →
    ∃ t, exec (.readSamples st) s = .next t ∧ t.integrator = s.integrator + slotSum s.acc c

/-- R203: a READ_SAMPLES that is not rejected, of c = min(count, avail) samples, completes with every slot moved down by c
and the top c slots 0, whatever ERR bits are set (R227). -/
def Obligations.ReadSamplesRetiresTheSlots : Prop :=
  ∀ (st : Bool) (s : State), s.Inv → s.arg0.toNat < 2 ^ 32 →
    let c := min s.arg0.toNat s.avail
    c = 0 ∨ s.arg1.toNat + (c - 1) * (if st then 2 else 1) < s.pcmLen.toNat →
    ∃ t, exec (.readSamples st) s = .next t ∧
      ∀ j, j < s.cfg.depth → accRead t.acc j = if j + c < s.cfg.depth then accRead s.acc (j + c) else 0

/-- R201: when the last index of the clamped count is not below PCM_LEN, the command is rejected with RANGE and no state
changes. -/
def Obligations.ReadBeyondPcmLenIsRejected : Prop :=
  ∀ (st : Bool) (s : State), s.arg0.toNat < 2 ^ 32 →
    let c := min s.arg0.toNat s.avail
    0 < c → s.pcmLen.toNat ≤ s.arg1.toNat + (c - 1) * (if st then 2 else 1) →
    exec (.readSamples st) s = .next (reject .range s)

/-- R205: the sample of an integrator value fits 16 bits, is the value shifted right by 15 where that fits, and exactly
32767 or -32768 where it does not. -/
def Obligations.SamplesAreClampedNotWrapped : Prop :=
  ∀ w : Word,
    (BitVec.ofInt 16 (sampleOf w)).toInt = sampleOf w ∧
    (2 ^ 30 ≤ w.toInt → sampleOf w = 32767) ∧ (w.toInt < -2 ^ 30 → sampleOf w = -32768) ∧
    (-2 ^ 30 ≤ w.toInt → w.toInt < 2 ^ 30 → sampleOf w * 2 ^ 15 ≤ w.toInt ∧ w.toInt < (sampleOf w + 1) * 2 ^ 15)

/-- R206: after CLEAR, whatever commands other than READ_SAMPLES come between, accepted or not, a READ_SAMPLES of at least
one sample whose last index is below PCM_LEN completes and its first sample is 0. -/
def Obligations.FirstSampleAfterClearIsZero : Prop :=
  ∀ (st : Bool) (s u v : State) (cs : List Command), s.Inv → exec .clear s = .next u →
    (∀ c ∈ cs, ∀ b, c.instr ≠ .readSamples b) → issueAll cs u = .next v → v.arg0.toNat < 2 ^ 32 →
    let c := min v.arg0.toNat v.avail
    0 < c → v.arg1.toNat + (c - 1) * (if st then 2 else 1) < v.pcmLen.toNat →
    ∃ w, exec (.readSamples st) v = .next w ∧
      Memory.readByte w.pcm (pcmAddress v.cfg v.arg1.toNat) = some 0 ∧
      Memory.readByte w.pcm (pcmAddress v.cfg v.arg1.toNat + 1) = some 0

/-- R81: a command writes a byte of the PCM array only in READ_SAMPLES, and only of an element below PCM_LEN. -/
def Obligations.OnlyElementsBelowPcmLenAreWritten : Prop :=
  ∀ (i : Instr) (s t : State) (a : Nat), s.Inv → exec i s = .next t →
    Memory.readByte t.pcm a ≠ Memory.readByte s.pcm a →
    (∃ st, i = .readSamples st) ∧
    ∃ idx, idx < s.pcmLen.toNat ∧ (a = s.cfg.pcmBase + 2 * idx ∨ a = s.cfg.pcmBase + 2 * idx + 1)

/-- R81: the block never reads the PCM array. For every command and state there are one next state and one list of byte
writes, the same whatever the array holds: with any array m the command answers that state with those bytes written, in
that order, into m. -/
def Obligations.BlockNeverReadsThePcmArray : Prop :=
  ∀ (i : Instr) (s : State), ∃ (t : State) (writes : List Host.Cell), ∀ m : Memory,
    exec i { s with pcm := m } =
      .next { t with pcm := writes.foldl (fun n w => Memory.writeByte n w.1 w.2) m }

/-! ### The host's lines -/

/-- R119: the accesses a command line assembles to, performed one by one, run exactly its command with its operands in
ARG0 and ARG1. -/
def Obligations.AssembledLineRunsItsCommand : Prop :=
  ∀ (s : State) (line : HostLine) (c : Command) (rest : List HostAccess),
    s.cfg.legal = true → line.command s = some c →
    core.run (assemble s.cfg line).length { s with pending := assemble s.cfg line ++ rest } =
      issue c { s with pending := rest }
end

