-- ==== Sys2Proof/Laws/State.lean ====
section
/-! SUPPORT. One lemma per field for each named update of State, so that no proof unfolds a record update. -/

namespace Sys2Proof.Machine

/-! ### reject (R224): only ERR and LAST_ERR -/

@[simp] theorem reject_cfg (c : Cause) (s : State) : (reject c s).cfg = s.cfg := rfl
@[simp] theorem reject_ready (c : Cause) (s : State) : (reject c s).ready = s.ready := rfl
@[simp] theorem reject_factor (c : Cause) (s : State) : (reject c s).factor = s.factor := rfl
@[simp] theorem reject_offset (c : Cause) (s : State) : (reject c s).offset = s.offset := rfl
@[simp] theorem reject_avail (c : Cause) (s : State) : (reject c s).avail = s.avail := rfl
@[simp] theorem reject_integrator (c : Cause) (s : State) : (reject c s).integrator = s.integrator := rfl
@[simp] theorem reject_acc (c : Cause) (s : State) : (reject c s).acc = s.acc := rfl
@[simp] theorem reject_sampleRate (c : Cause) (s : State) : (reject c s).sampleRate = s.sampleRate := rfl
@[simp] theorem reject_cutoff (c : Cause) (s : State) : (reject c s).cutoff = s.cutoff := rfl
@[simp] theorem reject_ksel (c : Cause) (s : State) : (reject c s).ksel = s.ksel := rfl
@[simp] theorem reject_arg0 (c : Cause) (s : State) : (reject c s).arg0 = s.arg0 := rfl
@[simp] theorem reject_arg1 (c : Cause) (s : State) : (reject c s).arg1 = s.arg1 := rfl
@[simp] theorem reject_result (c : Cause) (s : State) : (reject c s).result = s.result := rfl
@[simp] theorem reject_err (c : Cause) (s : State) : (reject c s).err = raiseErr c s.err := rfl
@[simp] theorem reject_lastErr (c : Cause) (s : State) : (reject c s).lastErr = BitVec.ofNat 8 c.code := rfl
@[simp] theorem reject_irqEn (c : Cause) (s : State) : (reject c s).irqEn = s.irqEn := rfl
@[simp] theorem reject_pcmLen (c : Cause) (s : State) : (reject c s).pcmLen = s.pcmLen := rfl
@[simp] theorem reject_pcm (c : Cause) (s : State) : (reject c s).pcm = s.pcm := rfl
@[simp] theorem reject_pending (c : Cause) (s : State) : (reject c s).pending = s.pending := rfl
@[simp] theorem reject_response (c : Cause) (s : State) : (reject c s).response = s.response := rfl

/-! ### setResult (R38): only RESULT

The parentheses in `(rfl)` keep simp from checking these by unfolding: compared with a whole state, a result such as
`ticksFor s n` would be computed. -/

@[simp] theorem setResult_cfg (v : Nat) (s : State) : (setResult v s).cfg = s.cfg := (rfl)
@[simp] theorem setResult_ready (v : Nat) (s : State) : (setResult v s).ready = s.ready := (rfl)
@[simp] theorem setResult_factor (v : Nat) (s : State) : (setResult v s).factor = s.factor := (rfl)
@[simp] theorem setResult_offset (v : Nat) (s : State) : (setResult v s).offset = s.offset := (rfl)
@[simp] theorem setResult_avail (v : Nat) (s : State) : (setResult v s).avail = s.avail := (rfl)
@[simp] theorem setResult_integrator (v : Nat) (s : State) : (setResult v s).integrator = s.integrator := (rfl)
@[simp] theorem setResult_acc (v : Nat) (s : State) : (setResult v s).acc = s.acc := (rfl)
@[simp] theorem setResult_sampleRate (v : Nat) (s : State) : (setResult v s).sampleRate = s.sampleRate := (rfl)
@[simp] theorem setResult_cutoff (v : Nat) (s : State) : (setResult v s).cutoff = s.cutoff := (rfl)
@[simp] theorem setResult_ksel (v : Nat) (s : State) : (setResult v s).ksel = s.ksel := (rfl)
@[simp] theorem setResult_arg0 (v : Nat) (s : State) : (setResult v s).arg0 = s.arg0 := (rfl)
@[simp] theorem setResult_arg1 (v : Nat) (s : State) : (setResult v s).arg1 = s.arg1 := (rfl)
@[simp] theorem setResult_result (v : Nat) (s : State) : (setResult v s).result = BitVec.ofNat 64 v := (rfl)
@[simp] theorem setResult_err (v : Nat) (s : State) : (setResult v s).err = s.err := (rfl)
@[simp] theorem setResult_lastErr (v : Nat) (s : State) : (setResult v s).lastErr = s.lastErr := (rfl)
@[simp] theorem setResult_irqEn (v : Nat) (s : State) : (setResult v s).irqEn = s.irqEn := (rfl)
@[simp] theorem setResult_pcmLen (v : Nat) (s : State) : (setResult v s).pcmLen = s.pcmLen := (rfl)
@[simp] theorem setResult_pcm (v : Nat) (s : State) : (setResult v s).pcm = s.pcm := (rfl)
@[simp] theorem setResult_pending (v : Nat) (s : State) : (setResult v s).pending = s.pending := (rfl)
@[simp] theorem setResult_response (v : Nat) (s : State) : (setResult v s).response = s.response := (rfl)

/-! ### withArgs (R37): only ARG0 and ARG1 -/

@[simp] theorem withArgs_cfg (a0 a1 : Word) (s : State) : (s.withArgs a0 a1).cfg = s.cfg := rfl
@[simp] theorem withArgs_ready (a0 a1 : Word) (s : State) : (s.withArgs a0 a1).ready = s.ready := rfl
@[simp] theorem withArgs_factor (a0 a1 : Word) (s : State) : (s.withArgs a0 a1).factor = s.factor := rfl
@[simp] theorem withArgs_offset (a0 a1 : Word) (s : State) : (s.withArgs a0 a1).offset = s.offset := rfl
@[simp] theorem withArgs_avail (a0 a1 : Word) (s : State) : (s.withArgs a0 a1).avail = s.avail := rfl
@[simp] theorem withArgs_integrator (a0 a1 : Word) (s : State) : (s.withArgs a0 a1).integrator = s.integrator := rfl
@[simp] theorem withArgs_acc (a0 a1 : Word) (s : State) : (s.withArgs a0 a1).acc = s.acc := rfl
@[simp] theorem withArgs_sampleRate (a0 a1 : Word) (s : State) : (s.withArgs a0 a1).sampleRate = s.sampleRate := rfl
@[simp] theorem withArgs_cutoff (a0 a1 : Word) (s : State) : (s.withArgs a0 a1).cutoff = s.cutoff := rfl
@[simp] theorem withArgs_ksel (a0 a1 : Word) (s : State) : (s.withArgs a0 a1).ksel = s.ksel := rfl
@[simp] theorem withArgs_arg0 (a0 a1 : Word) (s : State) : (s.withArgs a0 a1).arg0 = a0 := rfl
@[simp] theorem withArgs_arg1 (a0 a1 : Word) (s : State) : (s.withArgs a0 a1).arg1 = a1 := rfl
@[simp] theorem withArgs_result (a0 a1 : Word) (s : State) : (s.withArgs a0 a1).result = s.result := rfl
@[simp] theorem withArgs_err (a0 a1 : Word) (s : State) : (s.withArgs a0 a1).err = s.err := rfl
@[simp] theorem withArgs_lastErr (a0 a1 : Word) (s : State) : (s.withArgs a0 a1).lastErr = s.lastErr := rfl
@[simp] theorem withArgs_irqEn (a0 a1 : Word) (s : State) : (s.withArgs a0 a1).irqEn = s.irqEn := rfl
@[simp] theorem withArgs_pcmLen (a0 a1 : Word) (s : State) : (s.withArgs a0 a1).pcmLen = s.pcmLen := rfl
@[simp] theorem withArgs_pcm (a0 a1 : Word) (s : State) : (s.withArgs a0 a1).pcm = s.pcm := rfl
@[simp] theorem withArgs_pending (a0 a1 : Word) (s : State) : (s.withArgs a0 a1).pending = s.pending := rfl
@[simp] theorem withArgs_response (a0 a1 : Word) (s : State) : (s.withArgs a0 a1).response = s.response := rfl

/-! ### withFetchWord: only the pending accesses -/

@[simp] theorem withFetchWord_cfg (s : State) (nbits w : Nat) : (s.withFetchWord nbits w).cfg = s.cfg := rfl
@[simp] theorem withFetchWord_ready (s : State) (nbits w : Nat) : (s.withFetchWord nbits w).ready = s.ready := rfl
@[simp] theorem withFetchWord_factor (s : State) (nbits w : Nat) : (s.withFetchWord nbits w).factor = s.factor := rfl
@[simp] theorem withFetchWord_offset (s : State) (nbits w : Nat) : (s.withFetchWord nbits w).offset = s.offset := rfl
@[simp] theorem withFetchWord_avail (s : State) (nbits w : Nat) : (s.withFetchWord nbits w).avail = s.avail := rfl
@[simp] theorem withFetchWord_integrator (s : State) (nbits w : Nat) : (s.withFetchWord nbits w).integrator = s.integrator := rfl
@[simp] theorem withFetchWord_acc (s : State) (nbits w : Nat) : (s.withFetchWord nbits w).acc = s.acc := rfl
@[simp] theorem withFetchWord_sampleRate (s : State) (nbits w : Nat) : (s.withFetchWord nbits w).sampleRate = s.sampleRate := rfl
@[simp] theorem withFetchWord_cutoff (s : State) (nbits w : Nat) : (s.withFetchWord nbits w).cutoff = s.cutoff := rfl
@[simp] theorem withFetchWord_ksel (s : State) (nbits w : Nat) : (s.withFetchWord nbits w).ksel = s.ksel := rfl
@[simp] theorem withFetchWord_arg0 (s : State) (nbits w : Nat) : (s.withFetchWord nbits w).arg0 = s.arg0 := rfl
@[simp] theorem withFetchWord_arg1 (s : State) (nbits w : Nat) : (s.withFetchWord nbits w).arg1 = s.arg1 := rfl
@[simp] theorem withFetchWord_result (s : State) (nbits w : Nat) : (s.withFetchWord nbits w).result = s.result := rfl
@[simp] theorem withFetchWord_err (s : State) (nbits w : Nat) : (s.withFetchWord nbits w).err = s.err := rfl
@[simp] theorem withFetchWord_lastErr (s : State) (nbits w : Nat) : (s.withFetchWord nbits w).lastErr = s.lastErr := rfl
@[simp] theorem withFetchWord_irqEn (s : State) (nbits w : Nat) : (s.withFetchWord nbits w).irqEn = s.irqEn := rfl
@[simp] theorem withFetchWord_pcmLen (s : State) (nbits w : Nat) : (s.withFetchWord nbits w).pcmLen = s.pcmLen := rfl
@[simp] theorem withFetchWord_pcm (s : State) (nbits w : Nat) : (s.withFetchWord nbits w).pcm = s.pcm := rfl
@[simp] theorem withFetchWord_pending (s : State) (nbits w : Nat) : (s.withFetchWord nbits w).pending =
    .regWrite (commandAddress s.cfg) 8 (BitVec.ofNat 64 (w % 2 ^ nbits)) :: s.pending := rfl
@[simp] theorem withFetchWord_response (s : State) (nbits w : Nat) : (s.withFetchWord nbits w).response = s.response := rfl

/-! ### resetBlock (R260): the reset state but for the PCM array and the accesses still to come -/

@[simp] theorem resetBlock_cfg (s : State) : (resetBlock s).cfg = (State.resetOf s.cfg).cfg := rfl
@[simp] theorem resetBlock_ready (s : State) : (resetBlock s).ready = (State.resetOf s.cfg).ready := rfl
@[simp] theorem resetBlock_factor (s : State) : (resetBlock s).factor = (State.resetOf s.cfg).factor := rfl
@[simp] theorem resetBlock_offset (s : State) : (resetBlock s).offset = (State.resetOf s.cfg).offset := rfl
@[simp] theorem resetBlock_avail (s : State) : (resetBlock s).avail = (State.resetOf s.cfg).avail := rfl
@[simp] theorem resetBlock_integrator (s : State) : (resetBlock s).integrator = (State.resetOf s.cfg).integrator := rfl
@[simp] theorem resetBlock_acc (s : State) : (resetBlock s).acc = (State.resetOf s.cfg).acc := rfl
@[simp] theorem resetBlock_sampleRate (s : State) : (resetBlock s).sampleRate = (State.resetOf s.cfg).sampleRate := rfl
@[simp] theorem resetBlock_cutoff (s : State) : (resetBlock s).cutoff = (State.resetOf s.cfg).cutoff := rfl
@[simp] theorem resetBlock_ksel (s : State) : (resetBlock s).ksel = (State.resetOf s.cfg).ksel := rfl
@[simp] theorem resetBlock_arg0 (s : State) : (resetBlock s).arg0 = (State.resetOf s.cfg).arg0 := rfl
@[simp] theorem resetBlock_arg1 (s : State) : (resetBlock s).arg1 = (State.resetOf s.cfg).arg1 := rfl
@[simp] theorem resetBlock_result (s : State) : (resetBlock s).result = (State.resetOf s.cfg).result := rfl
@[simp] theorem resetBlock_err (s : State) : (resetBlock s).err = (State.resetOf s.cfg).err := rfl
@[simp] theorem resetBlock_lastErr (s : State) : (resetBlock s).lastErr = (State.resetOf s.cfg).lastErr := rfl
@[simp] theorem resetBlock_irqEn (s : State) : (resetBlock s).irqEn = (State.resetOf s.cfg).irqEn := rfl
@[simp] theorem resetBlock_pcmLen (s : State) : (resetBlock s).pcmLen = (State.resetOf s.cfg).pcmLen := rfl
@[simp] theorem resetBlock_pcm (s : State) : (resetBlock s).pcm = s.pcm := rfl
@[simp] theorem resetBlock_pending (s : State) : (resetBlock s).pending = s.pending := rfl
@[simp] theorem resetBlock_response (s : State) : (resetBlock s).response = (State.resetOf s.cfg).response := rfl

end Sys2Proof.Machine
end

