-- ==== Sys2Proof/Laws/Ops.lean ====
section
/-! SUPPORT. One spec lemma for each shared operation: cells, the accumulator file, the PCM space, operand forms, the
integer operators. Every memory operation keeps the canonical form. -/

namespace Sys2Proof.Machine

/-! ### Cells -/

theorem cellsSorted_iff {α : Type} (m : List (Nat × α)) :
    cellsSorted m = true ↔ (m.map Prod.fst).Pairwise (· < ·) := by simp [cellsSorted]

theorem cellsSorted_cons {α : Type} (k : Nat) (v : α) (m : List (Nat × α)) :
    cellsSorted ((k, v) :: m) = true ↔ (∀ e ∈ m, k < e.1) ∧ cellsSorted m = true := by
  simp [cellsSorted_iff, List.pairwise_cons]

@[simp] theorem cellsGet_nil {α : Type} (a : Nat) : cellsGet ([] : List (Nat × α)) a = none := rfl

theorem cellsGet_eq_none {α : Type} {m : List (Nat × α)} {a : Nat} (h : ∀ e ∈ m, e.1 ≠ a) : cellsGet m a = none := by
  induction m with
  | nil => rfl
  | cons e m ih =>
    obtain ⟨k, v⟩ := e
    have hk : k ≠ a := h (k, v) (by simp)
    simp only [cellsGet, hk, if_false]
    exact ih fun e he => h e (by simp [he])

theorem mem_of_cellsGet {α : Type} {m : List (Nat × α)} {a : Nat} {v : α} (h : cellsGet m a = some v) : (a, v) ∈ m := by
  induction m with
  | nil => simp [cellsGet] at h
  | cons e m ih =>
    obtain ⟨k, w⟩ := e
    simp only [cellsGet] at h
    split at h
    · simp_all
    · simp [ih h]

theorem cellsGet_of_mem {α : Type} {m : List (Nat × α)} {a : Nat} {v : α} (hs : cellsSorted m = true)
    (h : (a, v) ∈ m) : cellsGet m a = some v := by
  induction m with
  | nil => simp at h
  | cons e m ih =>
    obtain ⟨k, w⟩ := e
    obtain ⟨hk, hs⟩ := (cellsSorted_cons k w m).1 hs
    simp only [cellsGet]
    rcases List.mem_cons.1 h with h | h
    · simp_all
    · have := hk _ h
      have hne : k ≠ a := by simp only at this; omega
      simp [hne, ih hs h]

theorem mem_cellsPut {α : Type} {m : List (Nat × α)} {a : Nat} {v : α} {e : Nat × α} (h : e ∈ cellsPut m a v) :
    e = (a, v) ∨ e ∈ m := by
  induction m with
  | nil => simpa [cellsPut] using h
  | cons x m ih =>
    obtain ⟨k, w⟩ := x
    simp only [cellsPut] at h
    split at h
    · simpa using h
    · split at h
      · rcases List.mem_cons.1 h with h | h
        · exact .inl h
        · simp [h]
      · rcases List.mem_cons.1 h with h | h
        · simp [h]
        · rcases ih h with h | h <;> simp [h]

theorem cellsSorted_cellsPut {α : Type} {m : List (Nat × α)} (a : Nat) (v : α) (hs : cellsSorted m = true) :
    cellsSorted (cellsPut m a v) = true := by
  induction m with
  | nil => simp [cellsPut, cellsSorted]
  | cons x m ih =>
    obtain ⟨k, w⟩ := x
    obtain ⟨hk, hs'⟩ := (cellsSorted_cons k w m).1 hs
    simp only [cellsPut]
    split
    · rename_i hlt
      refine (cellsSorted_cons _ _ _).2 ⟨fun e he => ?_, hs⟩
      rcases List.mem_cons.1 he with he | he
      · simp [he, hlt]
      · exact Nat.lt_trans hlt (hk e he)
    · split
      · rename_i heq
        exact (cellsSorted_cons _ _ _).2 ⟨fun e he => heq ▸ hk e he, hs'⟩
      · rename_i hlt hne
        refine (cellsSorted_cons _ _ _).2 ⟨fun e he => ?_, ih hs'⟩
        rcases mem_cellsPut he with he | he
        · simp only [he]; omega
        · exact hk e he

theorem cellsGet_cellsPut {α : Type} {m : List (Nat × α)} (a : Nat) (v : α) (b : Nat) (hs : cellsSorted m = true) :
    cellsGet (cellsPut m a v) b = if b = a then some v else cellsGet m b := by
  induction m with
  | nil => simp [cellsPut, cellsGet, eq_comm]
  | cons x m ih =>
    obtain ⟨k, w⟩ := x
    obtain ⟨hk, hs'⟩ := (cellsSorted_cons k w m).1 hs
    simp only [cellsPut]
    split
    · by_cases hb : b = a
      · simp [cellsGet, hb]
      · have : a ≠ b := fun h => hb h.symm
        simp [cellsGet, hb, this]
    · split
      · rename_i heq
        subst heq
        by_cases hb : b = k
        · simp [cellsGet, hb]
        · have : k ≠ b := fun h => hb h.symm
          simp [cellsGet, hb, this]
      · rename_i hne
        simp only [cellsGet, ih hs']
        by_cases hkb : k = b
        · have : b ≠ a := by omega
          simp [hkb, this]
        · simp [hkb]

theorem cellsGet_cellsErase {α : Type} (m : List (Nat × α)) (a b : Nat) :
    cellsGet (cellsErase m a) b = if b = a then none else cellsGet m b := by
  induction m with
  | nil => simp [cellsErase]
  | cons x m ih =>
    obtain ⟨k, w⟩ := x
    simp only [cellsErase] at ih
    by_cases hka : k = a
    · subst hka
      simp only [cellsErase, List.filter_cons, ne_eq, not_true_eq_false, decide_false, Bool.false_eq_true, if_false, ih,
        cellsGet]
      by_cases hb : b = k
      · simp [hb]
      · have : k ≠ b := fun h => hb h.symm
        simp [hb, this]
    · simp only [cellsErase, List.filter_cons, ne_eq, hka, not_false_eq_true, decide_true, if_true, cellsGet, ih]
      by_cases hkb : k = b
      · have : b ≠ a := by omega
        simp [hkb, this]
      · simp [hkb]

theorem cellsSorted_filter {α : Type} {m : List (Nat × α)} (p : Nat × α → Bool) (hs : cellsSorted m = true) :
    cellsSorted (m.filter p) = true := by
  rw [cellsSorted_iff] at *
  exact hs.sublist (List.filter_sublist.map _)

theorem cellsSorted_cellsErase {α : Type} {m : List (Nat × α)} (a : Nat) (hs : cellsSorted m = true) :
    cellsSorted (cellsErase m a) = true := cellsSorted_filter _ hs

/-- Two sorted lists that list the same values under the same keys are equal: the form is canonical. -/
theorem cells_ext {α : Type} {m n : List (Nat × α)} (hm : cellsSorted m = true) (hn : cellsSorted n = true)
    (h : ∀ a, cellsGet m a = cellsGet n a) : m = n := by
  have key : ∀ {m n : List (Nat × α)}, cellsSorted m = true → (∀ a, cellsGet m a = cellsGet n a) →
      ∀ e ∈ m, e ∈ n := fun hm h e he => mem_of_cellsGet ((h _).symm.trans (cellsGet_of_mem hm he))
  have nodup : ∀ {m : List (Nat × α)}, cellsSorted m = true → m.Nodup := fun hm =>
    ((((cellsSorted_iff _).1 hm).imp (fun h => Nat.ne_of_lt h)).of_map Prod.fst (fun a b hab e => hab (by rw [e])))
  have hp : m.Perm n := (List.perm_ext_iff_of_nodup (nodup hm) (nodup hn)).2
    fun e => ⟨key hm h e, key hn (fun a => (h a).symm) e⟩
  have pw : ∀ {m : List (Nat × α)}, cellsSorted m = true → m.Pairwise (fun a b => a.1 < b.1) := fun hm =>
    List.pairwise_map.1 ((cellsSorted_iff _).1 hm)
  exact hp.eq_of_pairwise (fun a b _ _ h1 h2 => absurd h1 (by omega)) (pw hm) (pw hn)

/-! ### The accumulator file -/

@[simp] theorem accRead_nil (j : Nat) : accRead [] j = 0 := rfl

@[simp] theorem accWf_nil (depth : Nat) : accWf depth [] = true := by simp [accWf, cellsSorted]

theorem accWf_iff (depth : Nat) (acc : AccFile) :
    accWf depth acc = true ↔ cellsSorted acc = true ∧ ∀ e ∈ acc, e.1 < depth ∧ e.2 ≠ 0 := by
  simp only [accWf, Bool.and_eq_true, List.all_eq_true, decide_eq_true_eq]

theorem accRead_eq_zero_of_depth_le {depth : Nat} {acc : AccFile} {j : Nat} (h : accWf depth acc = true)
    (hj : depth ≤ j) : accRead acc j = 0 := by
  obtain ⟨-, h⟩ := (accWf_iff depth acc).1 h
  rw [accRead, cellsGet_eq_none (fun e he => by have := (h e he).1; omega)]
  rfl

theorem accRead_accWrite {acc : AccFile} (j : Nat) (v : Word) (k : Nat) (hs : cellsSorted acc = true) :
    accRead (accWrite acc j v) k = if k = j then v else accRead acc k := by
  unfold accRead accWrite
  by_cases hv : v = 0
  · rw [if_pos hv, cellsGet_cellsErase]
    by_cases hk : k = j <;> simp [hk, hv]
  · rw [if_neg hv, cellsGet_cellsPut _ _ _ hs]
    by_cases hk : k = j <;> simp [hk]

theorem accWf_accWrite {depth : Nat} {acc : AccFile} {j : Nat} (v : Word) (h : accWf depth acc = true)
    (hj : j < depth) : accWf depth (accWrite acc j v) = true := by
  obtain ⟨hs, hm⟩ := (accWf_iff depth acc).1 h
  unfold accWrite
  refine (accWf_iff _ _).2 ?_
  by_cases hv : v = 0
  · rw [if_pos hv]
    exact ⟨cellsSorted_cellsErase _ hs, fun e he => hm e (List.mem_filter.1 he).1⟩
  · rw [if_neg hv]
    refine ⟨cellsSorted_cellsPut _ _ hs, fun e he => ?_⟩
    rcases mem_cellsPut he with he | he
    · exact he ▸ ⟨hj, hv⟩
    · exact hm e he

/-- Adding modulo 2^64 is the addition of words. -/
theorem wrap64_toInt_add (w : Word) (x : Int) : wrap64 (w.toInt + x) = w + BitVec.ofInt 64 x := by
  rw [wrap64, BitVec.ofInt_add, BitVec.ofInt_toInt]

theorem accRead_accAdd {acc : AccFile} (j : Nat) (x : Int) (k : Nat) (hs : cellsSorted acc = true) :
    accRead (accAdd acc j x) k = if k = j then accRead acc k + BitVec.ofInt 64 x else accRead acc k := by
  rw [accAdd, accRead_accWrite _ _ _ hs, wrap64_toInt_add]
  by_cases hk : k = j <;> simp [hk]

theorem accWf_accAdd {depth : Nat} {acc : AccFile} {j : Nat} (x : Int) (h : accWf depth acc = true) (hj : j < depth) :
    accWf depth (accAdd acc j x) = true := accWf_accWrite _ h hj

theorem accWf_accAddTaps {depth : Nat} (d : Int) (taps : Kernel) {acc : AccFile} {base : Nat}
    (h : accWf depth acc = true) (hb : base + taps.length ≤ depth) :
    accWf depth (accAddTaps acc base d taps) = true := by
  induction taps generalizing acc base with
  | nil => exact h
  | cons c rest ih =>
    simp only [List.length_cons] at hb
    exact ih (accWf_accAdd _ h (by omega)) (by omega)

/-- What the tap loop leaves in a slot: `d` times the tap that falls on it is added, and the other slots keep. -/
theorem accRead_accAddTaps (d : Int) (taps : Kernel) {depth : Nat} {acc : AccFile} {base : Nat} (k : Nat)
    (h : accWf depth acc = true) (hb : base + taps.length ≤ depth) :
    accRead (accAddTaps acc base d taps) k =
      if base ≤ k ∧ k < base + taps.length then accRead acc k + BitVec.ofInt 64 (d * taps.getD (k - base) 0)
      else accRead acc k := by
  induction taps generalizing acc base with
  | nil =>
    have : ¬(base ≤ k ∧ k < base + 0) := by omega
    simp only [accAddTaps, List.length_nil, if_neg this]
  | cons c rest ih =>
    simp only [List.length_cons] at hb
    rw [accAddTaps, ih (accWf_accAdd _ h (by omega)) (by omega),
      accRead_accAdd _ _ _ ((accWf_iff _ _).1 h).1]
    simp only [List.length_cons]
    by_cases h1 : k = base
    · subst h1
      have : ¬(k + 1 ≤ k ∧ k < k + 1 + rest.length) := by omega
      simp
    · by_cases h2 : base + 1 ≤ k ∧ k < base + 1 + rest.length
      · have h3 : base ≤ k ∧ k < base + (rest.length + 1) := by omega
        have h4 : k - base = (k - (base + 1)) + 1 := by omega
        rw [if_pos h2, if_pos h3, if_neg h1, h4, List.getD_cons_succ]
      · have h3 : ¬(base ≤ k ∧ k < base + (rest.length + 1)) := by omega
        rw [if_neg h2, if_neg h3, if_neg h1]

theorem cellsGet_accRetire {acc : AccFile} (c j : Nat) (hs : cellsSorted acc = true) :
    cellsGet (accRetire acc c) j = cellsGet acc (j + c) := by
  induction acc with
  | nil => rfl
  | cons x m ih =>
    obtain ⟨k, w⟩ := x
    obtain ⟨-, hs'⟩ := (cellsSorted_cons k w m).1 hs
    unfold accRetire at ih ⊢
    by_cases hck : c ≤ k
    · simp only [List.filterMap_cons, hck, if_true, cellsGet, ih hs']
      by_cases h : k = j + c
      · have : k - c = j := by omega
        simp [h]
      · have : k - c ≠ j := by omega
        simp [h, this]
    · have : k ≠ j + c := by omega
      simp only [List.filterMap_cons, hck, if_false, cellsGet, ih hs', this]

theorem accRead_accRetire {acc : AccFile} (c j : Nat) (hs : cellsSorted acc = true) :
    accRead (accRetire acc c) j = accRead acc (j + c) := by
  rw [accRead, cellsGet_accRetire c j hs, accRead]

theorem accWf_accRetire {depth : Nat} {acc : AccFile} (c : Nat) (h : accWf depth acc = true) :
    accWf depth (accRetire acc c) = true := by
  obtain ⟨hs, hm⟩ := (accWf_iff depth acc).1 h
  refine (accWf_iff _ _).2 ⟨?_, fun e he => ?_⟩
  · clear h hm
    induction acc with
    | nil => simp [accRetire, cellsSorted]
    | cons x m ih =>
      obtain ⟨k, w⟩ := x
      obtain ⟨hk, hs'⟩ := (cellsSorted_cons k w m).1 hs
      have ih := ih hs'
      unfold accRetire at ih ⊢
      by_cases hck : c ≤ k
      · simp only [List.filterMap_cons, hck, if_true]
        refine (cellsSorted_cons _ _ _).2 ⟨fun e he => ?_, ih⟩
        obtain ⟨e', he', hf⟩ := List.mem_filterMap.1 he
        have := hk e' he'
        split at hf
        · cases hf; simp only; omega
        · cases hf
      · simpa only [List.filterMap_cons, hck, if_false] using ih
  · obtain ⟨e', he', hf⟩ := List.mem_filterMap.1 he
    obtain ⟨h1, h2⟩ := hm e' he'
    split at hf
    · cases hf; exact ⟨by simp only; omega, h2⟩
    · cases hf

/-- The accumulator file is canonical: files that read alike are equal. -/
theorem acc_ext {depth : Nat} {a b : AccFile} (ha : accWf depth a = true) (hb : accWf depth b = true)
    (h : ∀ j, accRead a j = accRead b j) : a = b := by
  obtain ⟨has, ham⟩ := (accWf_iff depth a).1 ha
  obtain ⟨hbs, hbm⟩ := (accWf_iff depth b).1 hb
  refine cells_ext has hbs fun j => ?_
  have hj := h j
  unfold accRead at hj
  cases h1 : cellsGet a j with
  | none =>
    cases h2 : cellsGet b j with
    | none => rfl
    | some v => simp [h1, h2] at hj; exact absurd hj.symm (hbm _ (mem_of_cellsGet h2)).2
  | some u =>
    cases h2 : cellsGet b j with
    | none => simp [h1, h2] at hj; exact absurd hj (ham _ (mem_of_cellsGet h1)).2
    | some v => simp [h1, h2] at hj; rw [hj]

/-! ### The PCM output space -/

@[simp] theorem readByte_nil (a : Nat) : Memory.readByte [] a = none := rfl

@[simp] theorem wf_nil : Memory.wf [] = true := by simp [Memory.wf, cellsSorted]

theorem wf_reset (cfg : Config) : Memory.wf (State.resetOf cfg).pcm = true := wf_nil

theorem wf_writeByte {m : Memory} (a : Nat) (b : Byte) (h : Memory.wf m = true) :
    Memory.wf (Memory.writeByte m a b) = true := cellsSorted_cellsPut a b h

theorem readByte_writeByte {m : Memory} (a : Nat) (b : Byte) (x : Nat) (h : Memory.wf m = true) :
    Memory.readByte (Memory.writeByte m a b) x = if x = a then some b else Memory.readByte m x :=
  cellsGet_cellsPut a b x h

theorem wf_pcmWrite (cfg : Config) {m : Memory} (idx : Nat) (v : BitVec 16) (h : Memory.wf m = true) :
    Memory.wf (pcmWrite cfg m idx v) = true := wf_writeByte _ _ (wf_writeByte _ _ h)

/-- A PCM write lists exactly the element's two bytes, the low one first. -/
theorem readByte_pcmWrite (cfg : Config) {m : Memory} (idx : Nat) (v : BitVec 16) (x : Nat) (h : Memory.wf m = true) :
    Memory.readByte (pcmWrite cfg m idx v) x =
      if x = pcmAddress cfg idx + 1 then some (v.extractLsb' 8 8)
      else if x = pcmAddress cfg idx then some (v.extractLsb' 0 8)
      else Memory.readByte m x := by
  rw [pcmWrite, readByte_writeByte _ _ _ (wf_writeByte _ _ h), readByte_writeByte _ _ _ h]

/-- Memories that read alike are equal. -/
theorem memory_ext {m n : Memory} (hm : Memory.wf m = true) (hn : Memory.wf n = true)
    (h : ∀ a, Memory.readByte m a = Memory.readByte n a) : m = n := cells_ext hm hn h

theorem wf_readLoop (s : State) (base stride n : Nat) (k : Nat) (integ : Word) {m : Memory} (h : Memory.wf m = true) :
    Memory.wf (readLoop s base stride n k integ m).2 = true := by
  induction n generalizing k integ m with
  | zero => exact h
  | succ n ih => exact ih _ _ (wf_pcmWrite _ _ _ h)

/-! ### Operand forms -/

theorem operandU32_isSome_iff (v : Word) : (operandU32 v).isSome ↔ v.toNat < 2 ^ 32 := by
  unfold operandU32
  have h : v.extractLsb' 32 32 = 0 ↔ v.toNat < 2 ^ 32 := by
    rw [← BitVec.toNat_inj]
    simp only [BitVec.extractLsb'_toNat, Nat.shiftRight_eq_div_pow, BitVec.ofNat_eq_ofNat, BitVec.toNat_ofNat]
    have := v.isLt
    omega
  split <;> simp_all

theorem operandU32_eq_none {v : Word} (h : 2 ^ 32 ≤ v.toNat) : operandU32 v = none := by
  have := (operandU32_isSome_iff v).not.2 (by omega)
  simpa using this

theorem toNat_of_operandU32 {v : Word} {n : BitVec 32} (h : operandU32 v = some n) : n.toNat = v.toNat := by
  have hlt := (operandU32_isSome_iff v).1 (by simp [h])
  unfold operandU32 at h
  split at h
  · cases h
    simp only [BitVec.extractLsb'_toNat, Nat.shiftRight_zero]
    omega
  · cases h

theorem operandU32_of_lt {v : Word} (h : v.toNat < 2 ^ 32) : operandU32 v = some (v.extractLsb' 0 32) := by
  have := (operandU32_isSome_iff v).2 h
  unfold operandU32 at *
  split <;> simp_all

theorem signExtend_low_iff (v : Word) :
    v = (v.extractLsb' 0 32).signExtend 64 ↔ -2 ^ 31 ≤ v.toInt ∧ v.toInt < 2 ^ 31 := by
  rw [← BitVec.toInt_inj, BitVec.toInt_signExtend_of_le (by omega)]
  simp only [BitVec.toInt_eq_toNat_cond, BitVec.extractLsb'_toNat, Nat.shiftRight_zero]
  have := v.isLt
  omega

theorem operandS32_of_range {v : Word} (h1 : -2 ^ 31 ≤ v.toInt) (h2 : v.toInt < 2 ^ 31) :
    operandS32 v = some v.toInt := if_pos ((signExtend_low_iff v).2 ⟨h1, h2⟩)

theorem operandS32_eq_none {v : Word} (h : v.toInt < -2 ^ 31 ∨ 2 ^ 31 ≤ v.toInt) : operandS32 v = none :=
  if_neg (fun he => by have := (signExtend_low_iff v).1 he; omega)

theorem operandS32_eq_some {v : Word} {d : Int} (h : operandS32 v = some d) :
    d = v.toInt ∧ -2 ^ 31 ≤ v.toInt ∧ v.toInt < 2 ^ 31 := by
  by_cases hr : -2 ^ 31 ≤ v.toInt ∧ v.toInt < 2 ^ 31
  · rw [operandS32_of_range hr.1 hr.2] at h
    exact ⟨(Option.some.inj h).symm, hr⟩
  · rw [operandS32_eq_none (by omega)] at h
    cases h

/-! ### Integer operators -/

/-- `ceil_div(a, b)` is the least q with `q * b >= a` (R17). -/
theorem ceilDiv_le_iff {a b : Nat} (hb : 0 < b) (q : Nat) : ceilDiv a b ≤ q ↔ a ≤ q * b := by
  unfold ceilDiv
  rw [← Nat.lt_succ_iff, Nat.div_lt_iff_lt_mul hb, Nat.succ_mul]
  omega

theorem le_ceilDiv_mul {a b : Nat} (hb : 0 < b) : a ≤ ceilDiv a b * b := (ceilDiv_le_iff hb _).1 (Nat.le_refl _)

theorem clamp16_bounds (v : Int) : -32768 ≤ clamp16 v ∧ clamp16 v ≤ 32767 := by unfold clamp16; omega

end Sys2Proof.Machine
end

