-- ==== Sys2Proof/Laws/Exec.lean ====
section
/-! SUPPORT. One inversion lemma for each meaning and each access: if it answers next t, then one of these cases holds,
with its guards. Later proofs cite these and unfold no meaning. -/

namespace Sys2Proof.Machine

@[simp] theorem rejected_eq (c : Cause) (s : State) : rejected c s = .next (reject c s) := rfl

@[simp] theorem next_inj {s t : State} :
    (Host.Outcome.next s : Host.Outcome State Fault Refusal) = .next t ↔ s = t :=
  ⟨fun h => by cases h; rfl, fun h => h ▸ rfl⟩

theorem execSetRates_cases {s t : State} (h : execSetRates s = .next t) :
    t = reject .rate s ∨
    (isFinite64 s.arg0 = true ∧ isFinite64 s.arg1 = true ∧ isPositive64 s.arg0 = true ∧ isPositive64 s.arg1 = true ∧
      factorOf s.arg0 s.arg1 ≤ 2 ^ 32 ∧
      t = { s with
        factor := factorOf s.arg0 s.arg1, sampleRate := s.arg1, ready := true
        ksel := selectKernel s.cfg s.arg1 s.cutoff }) := by
  unfold execSetRates at h
  split at h
  · exact .inl (next_inj.1 h).symm
  · split at h
    · exact .inl (next_inj.1 h).symm
    · split at h
      · exact .inl (next_inj.1 h).symm
      · rename_i h1 h2 h3
        simp only [Bool.not_eq_true', Bool.not_eq_false, Bool.and_eq_true] at h1 h2
        exact .inr ⟨h1.1, h1.2, h2.1, h2.2, Nat.le_of_not_lt h3, (next_inj.1 h).symm⟩

theorem execSetCutoff_cases {s t : State} (h : execSetCutoff s = .next t) :
    (s.cfg.freqAware = false ∧ t = reject .illegal s) ∨
    (s.cfg.freqAware = true ∧ operandU32 s.arg0 = none ∧ t = reject .operand s) ∨
    (∃ cut, s.cfg.freqAware = true ∧ operandU32 s.arg0 = some cut ∧
      t = { s with cutoff := cut, ksel := selectKernel s.cfg s.sampleRate cut }) := by
  unfold execSetCutoff at h
  split at h
  · rename_i hf
    split at h
    · rename_i ho
      exact .inr (.inl ⟨hf, ho, (next_inj.1 h).symm⟩)
    · rename_i cut ho
      exact .inr (.inr ⟨cut, hf, ho, (next_inj.1 h).symm⟩)
  · rename_i hf
    exact .inl ⟨by simpa using hf, (next_inj.1 h).symm⟩

theorem execClear_cases {s t : State} (h : execClear s = .next t) :
    t = { s with acc := [], offset := s.factor / 2, avail := 0, integrator := 0 } := (next_inj.1 h).symm

theorem execClocksNeeded_cases {s t : State} (h : execClocksNeeded s = .next t) :
    (∃ c, t = reject c s) ∨
    (operandU32 s.arg0 = some 0 ∧ t = setResult 0 s) ∨
    (∃ n, operandU32 s.arg0 = some n ∧ n ≠ 0 ∧ s.ready = true ∧ s.avail + n.toNat ≤ s.cfg.size ∧
      t = setResult (ticksFor s n.toNat) s) := by
  unfold execClocksNeeded at h
  split at h
  · exact .inl ⟨_, (next_inj.1 h).symm⟩
  · rename_i n ho
    split at h
    · rename_i hn
      exact .inr (.inl ⟨hn ▸ ho, (next_inj.1 h).symm⟩)
    · rename_i hn
      split at h
      · exact .inl ⟨_, (next_inj.1 h).symm⟩
      · rename_i hr
        split at h
        · exact .inl ⟨_, (next_inj.1 h).symm⟩
        · rename_i hc
          exact .inr (.inr ⟨n, ho, hn, by simpa using hr, Nat.le_of_not_lt hc, (next_inj.1 h).symm⟩)

theorem execAddDelta_cases {s t : State} (h : execAddDelta s = .next t) :
    (∃ c, t = reject c s) ∨
    (∃ n, operandU32 s.arg0 = some n ∧ operandS32 s.arg1 = some 0 ∧ t = s) ∨
    (∃ n d, operandU32 s.arg0 = some n ∧ operandS32 s.arg1 = some d ∧ d ≠ 0 ∧ s.ready = true ∧
      deltaBase s n.toNat + (activeKernel s).length ≤ s.cfg.depth ∧
      t = { s with acc := accAddTaps s.acc (deltaBase s n.toNat) d (activeKernel s) }) := by
  unfold execAddDelta at h
  split at h
  · rename_i n d hn hd
    split at h
    · rename_i h0
      exact .inr (.inl ⟨n, hn, h0 ▸ hd, (next_inj.1 h).symm⟩)
    · rename_i h0
      split at h
      · exact .inl ⟨_, (next_inj.1 h).symm⟩
      · rename_i hr
        split at h
        · exact .inl ⟨_, (next_inj.1 h).symm⟩
        · rename_i hc
          exact .inr (.inr ⟨n, d, hn, hd, h0, by simpa using hr, Nat.le_of_not_lt hc, (next_inj.1 h).symm⟩)
  · exact .inl ⟨_, (next_inj.1 h).symm⟩

theorem execEndFrame_cases {s t : State} (h : execEndFrame s = .next t) :
    (∃ c, t = reject c s) ∨
    (operandU32 s.arg0 = some 0 ∧ t = s) ∨
    (∃ n, operandU32 s.arg0 = some n ∧ n ≠ 0 ∧ s.ready = true ∧
      s.avail + positionAt s n.toNat / 2 ^ 32 ≤ s.cfg.size ∧
      t = { s with
        avail := s.avail + positionAt s n.toNat / 2 ^ 32, offset := positionAt s n.toNat % 2 ^ 32 }) := by
  unfold execEndFrame at h
  split at h
  · exact .inl ⟨_, (next_inj.1 h).symm⟩
  · rename_i n ho
    split at h
    · rename_i hn
      exact .inr (.inl ⟨hn ▸ ho, (next_inj.1 h).symm⟩)
    · rename_i hn
      split at h
      · exact .inl ⟨_, (next_inj.1 h).symm⟩
      · rename_i hr
        split at h
        · exact .inl ⟨_, (next_inj.1 h).symm⟩
        · rename_i hc
          exact .inr (.inr ⟨n, ho, hn, by simpa using hr, Nat.le_of_not_lt hc, (next_inj.1 h).symm⟩)

theorem execSamplesAvail_cases {s t : State} (h : execSamplesAvail s = .next t) : t = setResult s.avail s :=
  (next_inj.1 h).symm

theorem execReadSamples_cases {st : Bool} {s t : State} (h : execReadSamples st s = .next t) :
    (∃ c, t = reject c s) ∨
    (∃ n, operandU32 s.arg0 = some n ∧ readCount s n = 0 ∧ t = setResult 0 s) ∨
    (∃ n, operandU32 s.arg0 = some n ∧ readCount s n ≠ 0 ∧
      s.arg1.toNat + (readCount s n - 1) * strideOf st < s.pcmLen.toNat ∧
      t = setResult (readCount s n) { s with
        integrator := (readLoop s s.arg1.toNat (strideOf st) (readCount s n) 0 s.integrator s.pcm).1
        pcm := (readLoop s s.arg1.toNat (strideOf st) (readCount s n) 0 s.integrator s.pcm).2
        acc := accRetire s.acc (readCount s n)
        avail := s.avail - readCount s n }) := by
  unfold execReadSamples at h
  split at h
  · exact .inl ⟨_, (next_inj.1 h).symm⟩
  · rename_i n ho
    split at h
    · rename_i hn
      exact .inr (.inl ⟨n, ho, hn, (next_inj.1 h).symm⟩)
    · rename_i hn
      split at h
      · exact .inl ⟨_, (next_inj.1 h).symm⟩
      · rename_i hc
        exact .inr (.inr ⟨n, ho, hn, Nat.lt_of_not_le hc, (next_inj.1 h).symm⟩)

/-- One turn of the sample loop takes the integrator before slot k to the one before slot k + 1. -/
theorem integrate_integratorBefore (s : State) (k : Nat) :
    integrate s.cfg.leakShift (integratorBefore s k) (accRead s.acc k) = integratorBefore s (k + 1) := by
  have hadd : wrap64 ((integratorBefore s k).toInt + (accRead s.acc k).toInt) =
      integratorBefore s k + accRead s.acc k := by
    rw [wrap64_toInt_add, BitVec.ofInt_toInt]
  rw [integratorBefore]
  unfold integrate leak
  rw [hadd]
  split
  · rfl
  · rw [Int.sub_eq_add_neg, wrap64_toInt_add, BitVec.sub_eq_add_neg, BitVec.ofInt_neg]

/-- The integrator the sample loop answers, whatever the array. -/
theorem readLoop_fst (s : State) (base stride n k : Nat) (m : Memory) :
    (readLoop s base stride n k (integratorBefore s k) m).1 = integratorBefore s (k + n) := by
  induction n generalizing k m with
  | zero => rfl
  | succ n ih =>
    rw [readLoop, integrate_integratorBefore, ih]
    congr 1
    omega

/-- What the sample loop writes: the two bytes of each of its elements, and no other byte. -/
theorem readByte_readLoop (s : State) (base : Nat) {stride : Nat} (hst : 0 < stride) (n k : Nat) {m : Memory}
    (hm : Memory.wf m = true) :
    (∀ j, k ≤ j → j < k + n →
      Memory.readByte (readLoop s base stride n k (integratorBefore s k) m).2 (pcmAddress s.cfg (base + j * stride)) =
        some ((BitVec.ofInt 16 (sampleOf (integratorBefore s j))).extractLsb' 0 8) ∧
      Memory.readByte (readLoop s base stride n k (integratorBefore s k) m).2
          (pcmAddress s.cfg (base + j * stride) + 1) =
        some ((BitVec.ofInt 16 (sampleOf (integratorBefore s j))).extractLsb' 8 8)) ∧
    ∀ a, (∀ j, k ≤ j → j < k + n →
        a ≠ pcmAddress s.cfg (base + j * stride) ∧ a ≠ pcmAddress s.cfg (base + j * stride) + 1) →
      Memory.readByte (readLoop s base stride n k (integratorBefore s k) m).2 a = Memory.readByte m a := by
  induction n generalizing k m with
  | zero => exact ⟨fun j h1 h2 => by omega, fun a _ => rfl⟩
  | succ n ih =>
    obtain ⟨written, kept⟩ := ih (k + 1)
      (wf_pcmWrite s.cfg (base + k * stride) (BitVec.ofInt 16 (sampleOf (integratorBefore s k))) hm)
    rw [readLoop, integrate_integratorBefore]
    refine ⟨fun j h1 h2 => ?_, fun a ha => ?_⟩
    · rcases Nat.eq_or_lt_of_le h1 with rfl | hj
      · have hne : ∀ i, k + 1 ≤ i → i < k + 1 + n → base + k * stride < base + i * stride := fun i hi _ => by
          have : k * stride < i * stride := Nat.mul_lt_mul_of_pos_right (by omega) hst
          omega
        rw [kept _ fun i hi hi2 => by have := hne i hi hi2; simp only [pcmAddress]; omega,
          kept _ fun i hi hi2 => by have := hne i hi hi2; simp only [pcmAddress]; omega,
          readByte_pcmWrite _ _ _ _ hm, readByte_pcmWrite _ _ _ _ hm]
        simp
      · exact written j hj (by omega)
    · have hk := ha k (by omega) (by omega)
      rw [kept a fun j h1 h2 => ha j (by omega) (by omega), readByte_pcmWrite _ _ _ _ hm, if_neg hk.2, if_neg hk.1]

/-- Where READ_SAMPLES is not rejected and c = min(count, avail) is not 0, it completes with this state (R200). -/
theorem execReadSamples_of_inRange {st : Bool} {s : State} (h32 : s.arg0.toNat < 2 ^ 32)
    (hc : min s.arg0.toNat s.avail ≠ 0)
    (hp : s.arg1.toNat + (min s.arg0.toNat s.avail - 1) * strideOf st < s.pcmLen.toNat) :
    execReadSamples st s = .next (setResult (min s.arg0.toNat s.avail) { s with
      integrator := integratorBefore s (min s.arg0.toNat s.avail)
      pcm := (readLoop s s.arg1.toNat (strideOf st) (min s.arg0.toNat s.avail) 0 s.integrator s.pcm).2
      acc := accRetire s.acc (min s.arg0.toNat s.avail)
      avail := s.avail - min s.arg0.toNat s.avail }) := by
  have ho := operandU32_of_lt h32
  have hn : readCount s (s.arg0.extractLsb' 0 32) = min s.arg0.toNat s.avail := by
    rw [readCount, toNat_of_operandU32 ho]
  have hf := readLoop_fst s s.arg1.toNat (strideOf st) (min s.arg0.toNat s.avail) 0 s.pcm
  rw [Nat.zero_add, integratorBefore] at hf
  simp only [execReadSamples, ho, hn, if_neg hc, if_neg (Nat.not_le.2 hp), hf]

/-- With nothing to read, READ_SAMPLES answers 0 and changes nothing else (R200). -/
theorem execReadSamples_of_zero {st : Bool} {s : State} (h32 : s.arg0.toNat < 2 ^ 32)
    (hc : min s.arg0.toNat s.avail = 0) : execReadSamples st s = .next (setResult 0 s) := by
  have ho := operandU32_of_lt h32
  have hn : readCount s (s.arg0.extractLsb' 0 32) = 0 := by rw [readCount, toNat_of_operandU32 ho, hc]
  simp only [execReadSamples, ho, hn, if_true]

/-- COMMAND stands at offset 0x038 and nowhere else (R57). -/
theorem windowSlot_eq_command {cfg : Config} {off : Nat} (h : windowSlot cfg off = .command) : off = 0x038 := by
  unfold windowSlot at h
  split at h
  · rename_i r hr
    have hm := mem_of_cellsGet hr
    subst h
    simpa [registerMap] using hm
  · split at h <;> cases h

/-- The address of a window offset (R87). -/
theorem windowOffset_eq_some {cfg : Config} {addr off : Nat} (h : windowOffset cfg addr = some off) :
    addr = cfg.blrsBase + off ∧ off < 2 ^ 24 := by
  unfold windowOffset at h
  split at h
  · cases h
    rename_i hw
    simp only [windowBytes] at hw
    omega
  · cases h

/-- What a register write does: a field of the host's own, a command, a recorded rejection, or nothing. -/
theorem regWrite_cases {off n : Nat} {v : Word} {s t : State} (h : regWrite off n v s = .next t) :
    (accessOk off n = false ∧ t = reject .bus s) ∨
    t = s ∨
    t = { s with err := clearErr v s.err } ∨
    t = { s with irqEn := errField v } ∨
    t = { s with arg0 := v } ∨
    t = { s with arg1 := v } ∨
    t = { s with pcmLen := v } ∨
    (off = 0x038 ∧ n = 8 ∧ execute v s = .next t) := by
  unfold regWrite at h
  split at h
  · rename_i hok
    have hn : n = 8 := (of_decide_eq_true hok).1
    have hc := @windowSlot_eq_command s.cfg off
    unfold writeSlot at h
    split at h <;> simp_all
  · rename_i hok
    exact .inl ⟨by simpa using hok, (next_inj.1 h).symm⟩

/-- A COMMAND write runs the command its word decodes to, or records ILLEGAL. -/
theorem execute_cases {v : Word} {s t : State} (h : execute v s = .next t) :
    t = reject .illegal s ∨ ∃ i, decode v = .ok i ∧ exec i s = .next t := by
  unfold execute at h
  split at h
  · rename_i i hi
    exact .inr ⟨i, hi, h⟩
  · exact .inl (next_inj.1 h).symm

/-- What performing one access does. -/
theorem perform_cases {a : HostAccess} {s t : State} (h : perform a s = .next t) :
    (∃ r, t = { s with response := r }) ∨
    (∃ r, t = { reject .bus s with response := r }) ∨
    t = s ∨
    (∃ idx v, a = .pcmStore idx v ∧ t = { s with pcm := pcmWrite s.cfg s.pcm idx.toNat v }) ∨
    (a = .reset ∧ t = resetBlock s) ∨
    (∃ addr n v off, a = .regWrite addr n v ∧ windowOffset s.cfg addr = some off ∧ regWrite off n v s = .next t) := by
  unfold perform at h
  split at h
  · split at h
    · rw [next_inj] at h
      unfold regRead at h
      split at h
      · exact .inl ⟨_, h.symm⟩
      · exact .inr (.inl ⟨_, h.symm⟩)
    · exact .inl ⟨_, (next_inj.1 h).symm⟩
  · split at h
    · rename_i off hoff
      exact .inr (.inr (.inr (.inr (.inr ⟨_, _, _, off, rfl, hoff, h⟩))))
    · exact .inr (.inr (.inl (next_inj.1 h).symm))
  · exact .inl ⟨_, (next_inj.1 h).symm⟩
  · rename_i idx v
    exact .inr (.inr (.inr (.inl ⟨idx, v, rfl, (next_inj.1 h).symm⟩)))
  · exact .inr (.inr (.inr (.inr (.inl ⟨rfl, (next_inj.1 h).symm⟩))))

/-- One step: the configuration is legal, and either nothing is pending or the first access is performed. -/
theorem step_cases {s t : State} (h : step s = .next t) :
    s.cfg.legal = true ∧
    ((s.pending = [] ∧ t = s) ∨
      ∃ a rest, s.pending = a :: rest ∧ perform a { s with pending := rest } = .next t) := by
  unfold step at h
  split at h
  · rename_i hl
    refine ⟨hl, ?_⟩
    unfold performNext at h
    split at h
    · rename_i hp
      exact .inl ⟨hp, (next_inj.1 h).symm⟩
    · rename_i a rest hp
      exact .inr ⟨a, rest, hp, h⟩
  · cases h

end Sys2Proof.Machine
end

