-- ==== Sys2Proof/Laws/PerInstr.lean ====
section
/-! SUPPORT. Facts of the commands as syntax, one lemma per constructor. -/

namespace Sys2Proof.Laws.EncodedWord

/-- The word of a command has its operation code in bits [7:0], 1 to 8, and nothing above bit 8 (R110, R111). -/
def Statement (i : Sys2Proof.Instr) : Prop :=
  1 ≤ (encode i).toNat % 256 ∧ (encode i).toNat % 256 ≤ 8 ∧ (encode i).toNat < 512

theorem setRates : Statement .setRates := by unfold Statement; decide

theorem setCutoff : Statement .setCutoff := by unfold Statement; decide

theorem clear : Statement .clear := by unfold Statement; decide

theorem clocksNeeded : Statement .clocksNeeded := by unfold Statement; decide

theorem addDelta : Statement .addDelta := by unfold Statement; decide

theorem endFrame : Statement .endFrame := by unfold Statement; decide

theorem samplesAvail : Statement .samplesAvail := by unfold Statement; decide

theorem readSamples (stereo : Bool) : Statement (.readSamples stereo) := by unfold Statement; cases stereo <;> decide

end Sys2Proof.Laws.EncodedWord
end

