-- ==== Sys2Proof/Tests/Slice0.lean ====
section
/-! SUPPORT. Tests whose expected values come from spec/95_test_vectors.md or from the encodings of spec/30_encoding.md, the
refusals of ill-formed terms, and one witness for the hypotheses of each statement. -/

namespace Sys2Proof.Tests

open Sys2Proof Sys2Proof.Machine

/-! ### Helpers -/

/-- The state a step answers, or the reset state. -/
def after (o : Host.Outcome State Fault Refusal) : State :=
  match o with
  | .next t => t
  | .fault _ => State.reset
  | .refused _ => State.reset

/-- Whether a step is refused for its configuration. -/
def refusedConfig (o : Host.Outcome State Fault Refusal) : Bool :=
  match o with
  | .refused .illegalConfiguration => true
  | .refused (.notModelled _) => false
  | .next _ => false
  | .fault _ => false

/-- The reference state B48 (95_test_vectors.md section 0). -/
def b48 : State :=
  { State.reset with
    ready := true, factor := 115186915, offset := 57593457, sampleRate := 0x40E7700000000000
    ksel := { source := .rate .r48000, taps := 5 } }

/-- The state R2 of L2.9 with PCM_LEN 16. -/
def r2 : State :=
  { b48 with
    avail := 2, offset := 2986350365, pcmLen := 16
    acc := [(0, 4096000), (1, 8192000), (2, 8192000), (3, 8192000), (4, 4096000)] }

/-- Reset with another configuration. -/
def withCfg (cfg : Config) : State := State.resetOf cfg

/-- A state with accesses pending. -/
def withPending (s : State) (l : List HostAccess) : State := { s with pending := l }

/-- TC with another 96000 Hz kernel. -/
def bankWith (k : Kernel) : Config := { Config.tc with bank := { KernelBank.tc with kr96000 := k } }

/-- TC with another cutoff map. -/
def mapWith (l : List CutoffKernel) : Config := { Config.tc with bank := { KernelBank.tc with kc := l } }

theorem b48_inv : b48.Inv := by constructor <;> decide

theorem r2_inv : r2.Inv := by constructor <;> decide

theorem inv_withArgs {s : State} (a0 a1 : Word) (h : s.Inv) : (s.withArgs a0 a1).Inv :=
  ⟨h.cfgLegal, h.factorPos, h.factorMax, h.offsetLt, h.availLe, h.selected, h.cutoffAbsent, h.accCanonical,
    h.pcmCanonical, h.lastErrCode, h.errRecorded, h.uninitFresh⟩

/-! ### Ill-formed terms are refused (R11, R112, R141) -/

theorem test_tc_legal : Config.tc.legal = true := by decide

theorem test_size_zero_refused : Config.legal { Config.tc with size := 0 } = false := by decide

theorem test_size_large_refused : Config.legal { Config.tc with size := 1048577 } = false := by decide

theorem test_maxTaps_zero_refused : Config.legal { Config.tc with maxTaps := 0 } = false := by decide

theorem test_maxTaps_large_refused : Config.legal { Config.tc with maxTaps := 257 } = false := by decide

theorem test_headroom_refused : Config.legal { Config.tc with headroom := 257 } = false := by decide

theorem test_leakShift_refused : Config.legal { Config.tc with leakShift := 16 } = false := by decide

theorem test_kernel_empty_refused : (bankWith []).legal = false := by decide

theorem test_kernel_long_refused : Config.legal { Config.tc with maxTaps := 6 } = false := by decide

theorem test_kernel_coefficient_refused : (bankWith [2147483648, -4294934528, 2147483648]).legal = false := by decide

theorem test_kernel_gain_refused : (bankWith [16384, 16385]).legal = false := by decide

theorem test_kernel_symmetry_refused : (bankWith [16383, 16385]).legal = false := by decide

theorem test_cutoff_zero_refused :
    (mapWith [{ rate := .r48000, cutoff := 0, kernel := [32768] }]).legal = false := by decide

theorem test_cutoff_kernel_refused :
    (mapWith [{ rate := .r48000, cutoff := 1, kernel := [32767] }]).legal = false := by decide

theorem test_cutoff_twice_refused :
    (mapWith [{ rate := .r48000, cutoff := 1, kernel := [32768] },
      { rate := .r48000, cutoff := 1, kernel := [16384, 16384] }]).legal = false := by decide

theorem test_setCutoff_needs_freqAware :
    Instr.wellFormed { Config.tc with freqAware := false } .setCutoff = false := by decide

/-! ### Decoding: words written out bit by bit (R110, R111), and the illegal words of L2.10 -/

theorem test_decode_setRates : decode 0b0000000000000000000000000000000000000000000000000000000_0_00000001 = .ok .setRates :=
  rfl

theorem test_decode_setCutoff :
    decode 0b0000000000000000000000000000000000000000000000000000000_0_00000010 = .ok .setCutoff := rfl

theorem test_decode_clear : decode 0b0000000000000000000000000000000000000000000000000000000_0_00000011 = .ok .clear := rfl

theorem test_decode_clocksNeeded :
    decode 0b0000000000000000000000000000000000000000000000000000000_0_00000100 = .ok .clocksNeeded := rfl

theorem test_decode_addDelta :
    decode 0b0000000000000000000000000000000000000000000000000000000_0_00000101 = .ok .addDelta := rfl

theorem test_decode_endFrame :
    decode 0b0000000000000000000000000000000000000000000000000000000_0_00000110 = .ok .endFrame := rfl

theorem test_decode_samplesAvail :
    decode 0b0000000000000000000000000000000000000000000000000000000_0_00000111 = .ok .samplesAvail := rfl

theorem test_decode_readSamples_mono :
    decode 0b0000000000000000000000000000000000000000000000000000000_0_00001000 = .ok (.readSamples false) := rfl

theorem test_decode_readSamples_stereo :
    decode 0b0000000000000000000000000000000000000000000000000000000_1_00001000 = .ok (.readSamples true) := rfl

theorem test_decode_zero : decode 0 = .error .reservedOpcode := rfl

theorem test_decode_nine : decode 0x09 = .error .reservedOpcode := rfl

theorem test_decode_bit_nine : decode 0x200 = .error .reservedBits := rfl

theorem test_decode_bit_sixtythree : decode 0x8000000000000001 = .error .reservedBits := rfl

theorem test_decode_stray_stereo : decode 0x105 = .error .strayStereo := rfl

theorem test_decode_bytes : decodeBytes [0x08, 0x01, 0, 0, 0, 0, 0, 0] = .ok (.readSamples true) := rfl

theorem test_decode_seven_bytes : decodeBytes [0x08, 0, 0, 0, 0, 0, 0] = .error .wrongLength := rfl

theorem test_table_word : decodeTableWord 64 0x108 = some (.readSamples true) := by decide

theorem test_fetch_word_runs : (after (step (State.reset.withFetchWord 64 0x00))).lastErr = 1 := by decide

/-! ### The commands (L2.2 to L2.9) -/

theorem test_setRates_factor :
    (after (exec .setRates (State.reset.withArgs 0x413B4F4D00000000 0x40E7700000000000))).factor = 115186915 := by decide

theorem test_setRates_above_clock_rejected :
    (after (exec .setRates (State.reset.withArgs 0x40E76FE000000000 0x40E7700000000000))).lastErr = 3 := by decide

theorem test_setCutoff_kernel :
    kselWord (after (exec .setCutoff (b48.withArgs 15000 0))).ksel = 0x0000000000070002 := by decide

theorem test_setCutoff_unsupported :
    kselWord (after (exec .setCutoff (b48.withArgs 12345 0))).ksel = 0x0000000000010000 := by decide

theorem test_clear_offset : (after (exec .clear { r2 with factor := 412316861 })).offset = 206158430 := by decide

theorem test_clear_slots : (after (exec .clear r2)).acc = [] := by decide

theorem test_clocksNeeded_ceiling : (after (exec .clocksNeeded (b48.withArgs 3 0))).result = 112 := by decide

theorem test_clocksNeeded_beyond_a_frame :
    (after (exec .clocksNeeded ({ b48 with factor := 1, offset := 0 }.withArgs 2 0))).result = 0x200000000 := by decide

theorem test_addDelta_slots :
    (after (exec .addDelta (b48.withArgs 100 1000))).acc =
      [(2, 4096000), (3, 8192000), (4, 8192000), (5, 8192000), (6, 4096000)] := by decide

theorem test_addDelta_unextended_operand_rejected :
    (after (exec .addDelta (b48.withArgs 0 0x80000000))).lastErr = 7 := by decide

theorem test_endFrame_position :
    let t := after (exec .endFrame (b48.withArgs 1789773 0))
    t.avail = 48000 ∧ t.offset = 57805752 := by decide

theorem test_endFrame_over_capacity_rejected :
    (after (exec .endFrame ({ b48 with avail := 65536, offset := 203479571 }.withArgs 37 0))).lastErr = 4 := by decide

theorem test_samplesAvail : (after (exec .samplesAvail r2)).result = 2 := by decide

theorem test_readSamples_stereo :
    let t := after (exec (.readSamples true) ({ r2 with pcmLen := 3 }.withArgs 2 0))
    t.pcm = [(0, 0), (1, 0), (4, 125), (5, 0)] ∧ t.integrator = 12288000 := by decide

theorem test_readSamples_rounds_down :
    let t := after (exec (.readSamples false) ({ r2 with acc := [(0, -4096)] }.withArgs 2 0))
    t.pcm = [(0, 0), (1, 0), (2, 0xFF), (3, 0xFF)] ∧ t.avail = 0 := by decide

/-! ### The register window (L2.1, L2.11) -/

theorem test_id : readSlot (windowSlot Config.tc 0x000) State.reset = 0x424C525300010007 := by decide

theorem test_config : readSlot (windowSlot Config.tc 0x008) State.reset = 0x0000002000200F20 := by decide

theorem test_depth : readSlot (windowSlot Config.tc 0x088) State.reset = 0x10040 := by decide

theorem test_ksel_reset : readSlot (windowSlot Config.tc 0x068) State.reset = 0x1FF00 := by decide

theorem test_short_read_is_bus : statusWord (regRead 0x010 4 State.reset) = 0x62000 := by decide

theorem test_status_write_clears_one_bit :
    statusWord (after (writeSlot .status 0x0400 { State.reset with err := 0b0000110, lastErr := 3 })) = 0x30200 := by decide

theorem test_irq_follows_enable :
    State.irq { State.reset with err := 0b0000010, irqEn := 0b0000010 } = true := by decide

theorem test_registerMap_one_name_each : (registerMap.map Prod.fst).Nodup := by decide

/-! ### Exact binary64 values (95_test_vectors.md section 0) -/

theorem rat_48000 : binary64Rat 0x40E7700000000000 = 48000 := by
  have h1 : signBit 0x40E7700000000000 = false := by decide
  have h2 : exponentField 0x40E7700000000000 = 1038 := by decide
  have h3 : fractionField 0x40E7700000000000 = 2093470139285504 := by decide
  simp only [binary64Rat, h1, h2, h3]
  norm_num

theorem rat_1789773 : binary64Rat 0x413B4F4D00000000 = 1789773 := by
  have h1 : signBit 0x413B4F4D00000000 = false := by decide
  have h2 : exponentField 0x413B4F4D00000000 = 1043 := by decide
  have h3 : fractionField 0x413B4F4D00000000 = 3183416874893312 := by decide
  simp only [binary64Rat, h1, h2, h3]
  norm_num

theorem rat_minus_zero : binary64Rat 0x8000000000000000 = 0 := by
  have h2 : exponentField 0x8000000000000000 = 0 := by decide
  have h3 : fractionField 0x8000000000000000 = 0 := by decide
  simp only [binary64Rat, h2, h3]
  norm_num

/-! ### A witness for the hypotheses of each statement -/

theorem witness_IllegalWordsAreRejected :
    (512 ≤ (0x200 : Word).toNat) ∧ ((0x00 : Word).toNat % 256 = 0) ∧ (9 ≤ (0x09 : Word).toNat % 256) ∧
    (256 ≤ (0x105 : Word).toNat ∧ (0x105 : Word).toNat % 256 ≠ 8) ∧
    ((0x02 : Word).toNat % 256 = 2 ∧ (withCfg { Config.tc with freqAware := false }).cfg.freqAware = false) ∧
    (let v : Word := 0x108
     ¬(v.toNat % 256 = 0 ∨ 9 ≤ v.toNat % 256 ∨ 512 ≤ v.toNat ∨ (256 ≤ v.toNat ∧ v.toNat % 256 ≠ 8) ∨
      (v.toNat % 256 = 2 ∧ State.reset.cfg.freqAware = false))) := by
  decide

theorem witness_StepRunsTheWrittenCommand :
    let s := State.reset.withFetchWord 64 3
    s.cfg.legal = true ∧ s.pending = .regWrite (s.cfg.blrsBase + 0x038) 8 3 :: [] ∧ decode 3 = .ok .clear :=
  ⟨by decide, by decide, rfl⟩

theorem witness_BlockWaitsForAccesses : State.reset.cfg.legal = true ∧ State.reset.pending = [] := by decide

theorem witness_IllegalConfigurationIsRefused :
    (withCfg { Config.tc with size := 0 }).cfg.size = 0 ∧
    2 ^ 20 < (withCfg { Config.tc with size := 1048577 }).cfg.size ∧
    (withCfg { Config.tc with maxTaps := 0 }).cfg.maxTaps = 0 ∧
    256 < (withCfg { Config.tc with maxTaps := 257 }).cfg.maxTaps ∧
    256 < (withCfg { Config.tc with headroom := 257 }).cfg.headroom ∧
    15 < (withCfg { Config.tc with leakShift := 16 }).cfg.leakShift ∧
    KernelBank.kr (withCfg (bankWith [])).cfg.bank .r96000 = [] ∧
    (withCfg { Config.tc with maxTaps := 4 }).cfg.maxTaps < (KernelBank.kr KernelBank.tc .r48000).length ∧
    (KernelBank.kr (withCfg (bankWith [16384, 16385])).cfg.bank .r96000).sum ≠ 32768 ∧
    (KernelBank.kr (withCfg (bankWith [16383, 16385])).cfg.bank .r96000).reverse ≠ [16383, 16385] ∧
    (2 ^ 31 : Int) ∈ KernelBank.kr (withCfg (bankWith [2147483648, -4294934528, 2147483648])).cfg.bank .r96000 ∧
    refusedConfig (step (withCfg (mapWith [{ rate := .r48000, cutoff := 0, kernel := [32768] }]))) = true ∧
    refusedConfig (step (withCfg (mapWith [{ rate := .r48000, cutoff := 1, kernel := [] }]))) = true ∧
    refusedConfig (step (withCfg (mapWith [{ rate := .r48000, cutoff := 1, kernel := [32767] }]))) = true ∧
    refusedConfig (step (withCfg (mapWith [{ rate := .r48000, cutoff := 1, kernel := [16383, 16385] }]))) = true := by
  decide

theorem witness_NoCommandEndsTheRun : (withPending b48 [.regWrite 0x038 8 5]).cfg.legal = true := by decide

theorem witness_RegisterReadsHaveNoSideEffect :
    (withPending b48 [.regRead 0xFFFFF8 8]).cfg.legal = true ∧ 0xFFFFF8 < 2 ^ 24 ∧ 0xFFFFF8 % 8 = 0 := by
  decide

theorem witness_MalformedAccessesRecordBus :
    let s := withPending b48 [.regWrite 0x021 8 5]
    let u := withPending b48 [.regRead 0x010 4]
    s.cfg.legal = true ∧ 0x021 < 2 ^ 24 ∧ 0x021 % 8 ≠ 0 ∧ s.pending = .regWrite (s.cfg.blrsBase + 0x021) 8 5 :: [] ∧
    u.cfg.legal = true ∧ 4 ≠ 8 ∧ u.pending = .regRead (u.cfg.blrsBase + 0x010) 4 :: [] := by
  decide

theorem witness_AccessesOutsideTheWindowDoNotReachTheBlock :
    let s := withPending (withCfg { Config.tc with blrsBase := 4096 }) [.regWrite 4095 8 5]
    let u := withPending b48 [.regRead 16777216 8]
    s.cfg.legal = true ∧ 4095 < s.cfg.blrsBase ∧ s.pending = .regWrite 4095 8 5 :: [] ∧
    u.cfg.legal = true ∧ u.cfg.blrsBase + 2 ^ 24 ≤ 16777216 ∧ u.pending = .regRead 16777216 8 :: [] := by
  decide

theorem witness_ReadOnlyAndReservedWritesAreIgnored :
    let s := withPending b48 [.regWrite 0x080 8 5]
    s.cfg.legal = true ∧ 0x080 < 2 ^ 24 ∧ 0x080 % 8 = 0 ∧ 0x080 ∉ [0x010, 0x018, 0x020, 0x028, 0x038, 0x078] ∧
    s.pending = .regWrite (s.cfg.blrsBase + 0x080) 8 5 :: [] := by
  decide

theorem witness_ReservedOffsetsAndBitsReadZero :
    windowSlot Config.tc 0x090 = .reserved ∧ windowSlot Config.tc 0xFF8 = .reserved ∧
    windowSlot Config.tc 528896 = .reserved ∧ 528896 = 0x1000 + 8 * Config.tc.depth := by
  decide

theorem witness_HostRegistersHoldWhatIsWritten : b48.cfg.legal = true := by decide

theorem witness_StatusIsWriteOneToClear : State.cfg { r2 with err := 3, lastErr := 2 } = Config.tc ∧ Config.tc.legal = true := by
  decide

theorem witness_AccWindowReadsTheSlots :
    let s := withPending r2 [.regRead (0x1000 + 8 * 65599) 8]
    s.cfg.legal = true ∧ 65599 < s.cfg.depth ∧ s.pending = .regRead (s.cfg.blrsBase + 0x1000 + 8 * 65599) 8 :: [] := by
  decide

theorem witness_IdentificationRegistersHoldTheParameters :
    b48.cfg.legal = true ∧ b48.cfg.freqAware = true ∧ b48.cfg.leakShift = 0 := by decide

theorem witness_KselReadsTheActiveKernel :
    (State.reset.Inv ∧ State.reset.ksel.source = .dirac none) ∧ (b48.Inv ∧ b48.ksel.source = .rate .r48000) ∧
    (let s := { b48 with cutoff := 15000, ksel := { source := .cutoff .r48000, taps := 7 } }
     s.Inv ∧ s.ksel.source = .cutoff .r48000) := by
  refine ⟨⟨?_, by decide⟩, ⟨b48_inv, by decide⟩, ?_, by decide⟩ <;> constructor <;> decide

theorem witness_InterruptIsTheEnabledErrorLevel :
    (after (writeSlot .status 0x7F00 { b48 with err := 2, irqEn := 2 })).err = 0 := by decide

theorem witness_HostLoadReturnsTheStoredElement : r2.cfg.legal = true ∧ Memory.wf r2.pcm = true := by decide

theorem witness_ResetGivesTheTableOfResetValues :
    let s := withPending r2 [.reset]
    s.cfg.legal = true ∧ s.pending = .reset :: [] := by decide

theorem witness_ResetMeetsTheInvariant : Config.tc.legal = true := by decide

theorem witness_EveryStepKeepsTheInvariant : ∃ t, b48.Inv ∧ step b48 = .next t := ⟨b48, b48_inv, rfl⟩

theorem witness_ReadyIsSetBySetRatesAndClearedByReset :
    (let s := State.reset.withArgs 0x413B4F4D00000000 0x40E7700000000000
     ∃ t, exec .setRates s = .next t ∧ t ≠ reject .rate s) ∧
    (let s := (State.reset.withArgs 0x413B4F4D00000000 0x40E7700000000000).withFetchWord 64 1
     ∃ t, step s = .next t ∧ s.ready = false ∧ t.ready = true) ∧
    (let s := withPending b48 [.reset]
     ∃ t, step s = .next t ∧ s.ready = true ∧ t.ready = false) :=
  ⟨⟨_, rfl, by decide⟩, ⟨_, rfl, by decide⟩, ⟨_, rfl, by decide⟩⟩

theorem witness_CommandsWriteOnlyTheirFields :
    (let s := State.reset.withArgs 0x413B4F4D00000000 0x40E7700000000000
     ∃ t, exec .setRates s = .next t ∧ t.factor ≠ s.factor ∧ t.ksel ≠ s.ksel) ∧
    (let s := b48.withArgs 15000 0
     ∃ t, exec .setCutoff s = .next t ∧ t.cutoff ≠ s.cutoff ∧ t.ksel ≠ s.ksel) ∧
    (∃ t, exec .clear r2 = .next t ∧ t.offset ≠ r2.offset ∧ t.avail ≠ r2.avail ∧ t.acc ≠ r2.acc) ∧
    (let s := r2.withArgs 2 0
     ∃ t, exec (.readSamples false) s = .next t ∧ t.integrator ≠ s.integrator ∧ t.result ≠ s.result ∧
      Memory.readByte t.pcm 0 ≠ Memory.readByte s.pcm 0) :=
  ⟨⟨_, rfl, by decide⟩, ⟨_, rfl, by decide⟩, ⟨_, rfl, by decide⟩, ⟨_, rfl, by decide⟩⟩

theorem witness_OnlySetRatesOrResetChangesTheFactor :
    (let s := withPending b48 [.reset]
     ∃ t, step s = .next t ∧ t.factor ≠ s.factor) ∧
    (let s := (State.reset.withArgs 0x413B4F4D00000000 0x40E7700000000000).withFetchWord 64 1
     ∃ t, step s = .next t ∧ t.factor ≠ s.factor) :=
  ⟨⟨_, rfl, by decide⟩, ⟨_, rfl, by decide⟩⟩

theorem witness_RejectionsArePrecise :
    let s := b48.withArgs 0x100000000 0
    ∃ t, exec .endFrame s = .next t ∧ (t.err ≠ s.err ∨ t.lastErr ≠ s.lastErr) :=
  ⟨_, rfl, by decide⟩

theorem witness_UninitializedStateGatesThreeCommands :
    let s := State.reset.withArgs 1 5
    s.ready = false ∧ 0 < s.arg0.toNat ∧ s.arg0.toNat < 2 ^ 32 ∧ -2 ^ 31 ≤ s.arg1.toInt ∧ s.arg1.toInt < 2 ^ 31 ∧
    s.arg1 ≠ 0 ∧ s.err = 0 ∧ ∃ t, exec .samplesAvail s = .next t :=
  ⟨by decide, by decide, by decide, by decide, by decide, by decide, by decide, _, rfl⟩

theorem witness_OperandsOutOfRangeAreRejected :
    2 ^ 32 ≤ (b48.withArgs 0x100000000 0).arg0.toNat ∧ b48.cfg.freqAware = true ∧
    2 ^ 31 ≤ (b48.withArgs 0 0x80000000).arg1.toInt ∧ (b48.withArgs 0 0xFFFFFFFF7FFFFFFF).arg1.toInt < -2 ^ 31 := by
  decide

theorem witness_ZeroOperandsAreNoOps :
    (b48.withArgs 0xFFFFFFFF 0).arg0.toNat < 2 ^ 32 ∧ (b48.withArgs 0xFFFFFFFF 0).arg1 = 0 ∧
    (b48.withArgs 0 0).arg0 = 0 ∧ b48.avail = 0 := by
  decide

theorem witness_SetRatesTakesTheExactCeiling :
    (let s := State.reset.withArgs 0x413B4F4D00000000 0x40E7700000000000
     isFinite64 s.arg0 = true ∧ isFinite64 s.arg1 = true ∧ 0 < binary64Rat s.arg0 ∧ 0 < binary64Rat s.arg1 ∧
      ⌈(2 ^ 32 * binary64Rat s.arg1 / binary64Rat s.arg0 : ℚ)⌉ ≤ 2 ^ 32) ∧
    (let s := State.reset.withArgs 0x40E7700000000000 0x40E7700000000000
     ⌈(2 ^ 32 * binary64Rat s.arg1 / binary64Rat s.arg0 : ℚ)⌉ ≤ 2 ^ 32) := by
  refine ⟨⟨by decide, by decide, ?_, ?_, ?_⟩, ?_⟩
  · simp only [withArgs_arg0, rat_1789773]; norm_num
  · simp only [withArgs_arg1, rat_48000]; norm_num
  · simp only [withArgs_arg0, withArgs_arg1, rat_48000, rat_1789773, Int.ceil_le]; norm_num
  · simp only [withArgs_arg0, withArgs_arg1, rat_48000, Int.ceil_le]; norm_num

theorem witness_SetRatesRejectsInvalidRates :
    isFinite64 (State.reset.withArgs 0x7FF8000000000000 0).arg0 = false ∧
    isFinite64 (State.reset.withArgs 0 0x7FF0000000000000).arg1 = false ∧
    binary64Rat (State.reset.withArgs 0x8000000000000000 0).arg0 ≤ 0 ∧
    binary64Rat (State.reset.withArgs 0 0x8000000000000000).arg1 ≤ 0 ∧
    (let s := State.reset.withArgs 0x40E7700000000000 0x413B4F4D00000000
     2 ^ 32 < ⌈(2 ^ 32 * binary64Rat s.arg1 / binary64Rat s.arg0 : ℚ)⌉) := by
  refine ⟨by decide, by decide, ?_, ?_, ?_⟩
  · simp only [withArgs_arg0, rat_minus_zero]; norm_num
  · simp only [withArgs_arg1, rat_minus_zero]; norm_num
  · simp only [withArgs_arg0, withArgs_arg1, rat_48000, rat_1789773, Int.lt_ceil]; norm_num

theorem witness_SelectionFollowsRateAndCutoff :
    (State.reset.ksel = selectKernel State.reset.cfg State.reset.sampleRate State.reset.cutoff ∧
      rateIndexOf State.reset.sampleRate = none) ∧
    (b48.ksel = selectKernel b48.cfg b48.sampleRate b48.cutoff ∧ rateIndexOf b48.sampleRate = some .r48000 ∧
      b48.cutoff = 0) ∧
    (let s := { b48 with cutoff := 15000, ksel := { source := .cutoff .r48000, taps := 7 } }
     s.ksel = selectKernel s.cfg s.sampleRate s.cutoff ∧ s.cutoff ≠ 0 ∧ s.cfg.freqAware = true ∧
      KernelBank.kcAt s.cfg.bank .r48000 s.cutoff = some [2048, 4096, 6144, 8192, 6144, 4096, 2048]) ∧
    (let s := { b48 with cutoff := 12345, ksel := { source := .dirac (some .r48000), taps := 1 } }
     s.ksel = selectKernel s.cfg s.sampleRate s.cutoff ∧ s.cutoff ≠ 0 ∧
      KernelBank.kcAt s.cfg.bank .r48000 s.cutoff = none) := by
  decide

theorem witness_SetCutoffReselectsTheKernel :
    (b48.withArgs 0xFFFFFFFF 0).cfg.freqAware = true ∧ (b48.withArgs 0xFFFFFFFF 0).arg0.toNat < 2 ^ 32 ∧
    (withCfg { Config.tc with freqAware := false }).cfg.freqAware = false := by
  decide

theorem witness_ClocksNeededAnswersTheLeastTickCount :
    let s := b48.withArgs 65536 0
    let u := b48.withArgs 65537 0
    s.Inv ∧ s.ready = true ∧ 0 < s.arg0.toNat ∧ s.arg0.toNat < 2 ^ 32 ∧ s.avail + s.arg0.toNat ≤ s.cfg.size ∧
    u.Inv ∧ u.ready = true ∧ u.cfg.size < u.avail + u.arg0.toNat :=
  ⟨inv_withArgs _ _ b48_inv, by decide, by decide, by decide, by decide, inv_withArgs _ _ b48_inv, by decide, by decide⟩

theorem witness_ClocksNeededIsMinimalForEndFrame :
    (let s := b48.withArgs 1 0
     ∃ t, s.Inv ∧ s.ready = true ∧ 0 < s.arg0.toNat ∧ s.arg0.toNat < 2 ^ 32 ∧ s.avail + s.arg0.toNat ≤ s.cfg.size ∧
      exec .clocksNeeded s = .next t ∧ t.result.toNat < 2 ^ 32) ∧
    (let s := { b48 with factor := 1, offset := 0 }.withArgs 1 0
     ∃ t, s.Inv ∧ s.ready = true ∧ 0 < s.arg0.toNat ∧ s.arg0.toNat < 2 ^ 32 ∧ s.avail + s.arg0.toNat ≤ s.cfg.size ∧
      exec .clocksNeeded s = .next t ∧ t.result.toNat = 2 ^ 32) := by
  refine ⟨⟨_, inv_withArgs _ _ b48_inv, by decide, by decide, by decide, by decide, rfl, by decide⟩,
    ⟨_, inv_withArgs _ _ ?_, by decide, by decide, by decide, by decide, rfl, by decide⟩⟩
  constructor <;> decide

theorem witness_AddDeltaSpreadsTheKernel :
    let s := b48.withArgs 2445837 1
    s.Inv ∧ s.ready = true ∧ s.arg0.toNat < 2 ^ 32 ∧ -2 ^ 31 ≤ s.arg1.toInt ∧ s.arg1.toInt < 2 ^ 31 ∧ s.arg1 ≠ 0 ∧
    s.avail + (s.arg0.toNat * s.factor + s.offset) / 2 ^ 32 + (activeKernel s).length = s.cfg.depth :=
  ⟨inv_withArgs _ _ b48_inv, by decide, by decide, by decide, by decide, by decide, rfl⟩

theorem witness_DeltaBeyondTheBufferIsRejected :
    let s := b48.withArgs 2445874 1
    s.ready = true ∧ s.arg0.toNat < 2 ^ 32 ∧ -2 ^ 31 ≤ s.arg1.toInt ∧ s.arg1.toInt < 2 ^ 31 ∧ s.arg1 ≠ 0 ∧
    4 < (activeKernel s).length ∧ s.cfg.depth ≤ s.avail + (s.arg0.toNat * s.factor + s.offset) / 2 ^ 32 + 4 := by
  decide

theorem witness_DeltaOrderDoesNotMatter :
    let ds : List (Word × Word) := [(0, 1000), (100, -500)]
    let es : List (Word × Word) := [(100, -500), (0, 1000)]
    ∃ t, b48.Inv ∧ ds.Perm es ∧ issueAll (ds.map fun d => deltaCommand d.1 d.2) b48 = .next t ∧ t.err = 0 ∧
      t.acc.map (fun e => e.2.toInt) = [4096000, 8192000, 6144000, 4096000, -4096000, -2048000] :=
  ⟨_, b48_inv, by decide, rfl, by decide, by decide +kernel⟩

theorem witness_DeltaHasUnitGain :
    let s := { b48 with err := 2, lastErr := 2 }.withArgs 0 1000
    s.Inv ∧ s.ready = true ∧ s.arg0.toNat < 2 ^ 32 ∧ -2 ^ 31 ≤ s.arg1.toInt ∧ s.arg1.toInt < 2 ^ 31 ∧
    s.avail + (s.arg0.toNat * s.factor + s.offset) / 2 ^ 32 + (activeKernel s).length ≤ s.cfg.depth := by
  refine ⟨inv_withArgs _ _ ?_, by decide, by decide, by decide, by decide, by decide⟩
  constructor <;> decide

theorem witness_SlotsSumToTheStepResponse :
    let s := b48.withArgs 37 1000
    s.Inv ∧ s.ready = true ∧ s.arg0.toNat < 2 ^ 32 ∧ -2 ^ 31 ≤ s.arg1.toInt ∧ s.arg1.toInt < 2 ^ 31 ∧
    (∀ j, accRead s.acc j = 0) ∧
    s.avail + (s.arg0.toNat * s.factor + s.offset) / 2 ^ 32 + (activeKernel s).length ≤ s.cfg.depth :=
  ⟨inv_withArgs _ _ b48_inv, by decide, by decide, by decide, by decide, fun _ => rfl, by decide⟩

theorem witness_AvailableSamplesAreFinal :
    let s := r2.withArgs 0 1000
    ∃ t, s.Inv ∧ exec .addDelta s = .next t ∧ 1 < s.avail ∧ t.acc ≠ s.acc :=
  ⟨_, inv_withArgs _ _ r2_inv, rfl, by decide, by decide⟩

theorem witness_EndFrameCommitsTheFrame :
    let s := b48.withArgs 2443637 0
    let u := { b48 with avail := 65536, offset := 203479571 }.withArgs 37 0
    s.ready = true ∧ 0 < s.arg0.toNat ∧ s.arg0.toNat < 2 ^ 32 ∧
    s.avail + (s.arg0.toNat * s.factor + s.offset) / 2 ^ 32 = s.cfg.size ∧
    u.ready = true ∧ 0 < u.arg0.toNat ∧ u.cfg.size < u.avail + (u.arg0.toNat * u.factor + u.offset) / 2 ^ 32 := by
  decide

theorem witness_LongRunCountIsExact :
    let cs : List Command := [{ instr := .endFrame, arg0 := 100, arg1 := 0 },
      { instr := .readSamples false, arg0 := 1, arg1 := 0 }, { instr := .endFrame, arg0 := 37, arg1 := 0 }]
    let s := { b48 with pcmLen := 1 }
    ∃ t, s.Inv ∧ s.offset = s.factor / 2 ∧ (∀ c ∈ cs, c.instr ≠ .setRates ∧ c.instr ≠ .clear) ∧
      issueAll cs s = .next t ∧ t.err = 0 ∧ madeAvailable cs s = 3 :=
  ⟨_, ⟨by decide, by decide, by decide, by decide, by decide, by decide, by decide, by decide, by decide, by decide,
    by decide, by decide⟩, by decide, by decide, rfl, by decide, by decide⟩

theorem witness_LongRunDriftIsBounded :
    isFinite64 0x413B4F4D00000000 = true ∧ isFinite64 0x40E7700000000000 = true ∧ 0 < binary64Rat 0x413B4F4D00000000 ∧
    0 < binary64Rat 0x40E7700000000000 ∧ factorOf 0x413B4F4D00000000 0x40E7700000000000 ≤ 2 ^ 32 := by
  refine ⟨by decide, by decide, ?_, ?_, by decide⟩
  · rw [rat_1789773]; norm_num
  · rw [rat_48000]; norm_num

theorem witness_SamplesAvailAnswersAvail : r2.Inv := r2_inv

theorem witness_ReadSamplesWritesTheIntegratedSamples :
    let s := { r2 with pcmLen := 2 }.withArgs 2 0
    let u := { r2 with pcmLen := 3 }.withArgs 10 0
    (s.Inv ∧ s.arg0.toNat < 2 ^ 32 ∧ 0 < min s.arg0.toNat s.avail ∧
      s.arg1.toNat + (min s.arg0.toNat s.avail - 1) * 1 < s.pcmLen.toNat) ∧
    (u.Inv ∧ u.arg0.toNat < 2 ^ 32 ∧ 0 < min u.arg0.toNat u.avail ∧
      u.arg1.toNat + (min u.arg0.toNat u.avail - 1) * 2 < u.pcmLen.toNat) := by
  refine ⟨⟨?_, by decide, by decide, by decide⟩, ⟨?_, by decide, by decide, by decide⟩⟩ <;> constructor <;> decide

theorem witness_IntegratorIsACumulativeSum :
    let s := { r2 with pcmLen := 3 }.withArgs 2 0
    s.cfg.leakShift = 0 ∧ s.arg0.toNat < 2 ^ 32 ∧ min s.arg0.toNat s.avail = 2 ∧
    s.arg1.toNat + (2 - 1) * 2 < s.pcmLen.toNat ∧ min b48.arg0.toNat b48.avail = 0 := by
  decide

theorem witness_ReadSamplesRetiresTheSlots :
    let s := { r2 with err := 8, lastErr := 4 }.withArgs 1 0
    s.Inv ∧ s.arg0.toNat < 2 ^ 32 ∧ min s.arg0.toNat s.avail = 1 ∧ s.arg1.toNat + (1 - 1) * 1 < s.pcmLen.toNat ∧
    65599 < s.cfg.depth ∧ b48.Inv ∧ min b48.arg0.toNat b48.avail = 0 := by
  refine ⟨inv_withArgs _ _ ?_, by decide, by decide, by decide, by decide, b48_inv, by decide⟩
  constructor <;> decide

theorem witness_ReadBeyondPcmLenIsRejected :
    let s := { r2 with pcmLen := 2 }.withArgs 2 0
    s.arg0.toNat < 2 ^ 32 ∧ 0 < min s.arg0.toNat s.avail ∧
    s.pcmLen.toNat ≤ s.arg1.toNat + (min s.arg0.toNat s.avail - 1) * 2 := by
  decide

theorem witness_SamplesAreClampedNotWrapped :
    2 ^ 30 ≤ (0x40000000 : Word).toInt ∧ (0xFFFFFFFFBFFFFFFF : Word).toInt < -2 ^ 30 ∧
    -2 ^ 30 ≤ (0xFFFFFFFFC0000000 : Word).toInt ∧ (0x3FFFFFFF : Word).toInt < 2 ^ 30 := by
  decide

theorem witness_FirstSampleAfterClearIsZero :
    let cs : List Command := [deltaCommand 0 1000, { instr := .endFrame, arg0 := 100, arg1 := 0 }]
    ∃ u v, r2.Inv ∧ exec .clear r2 = .next u ∧ (∀ c ∈ cs, ∀ b, c.instr ≠ .readSamples b) ∧
      issueAll cs u = .next v ∧ v.arg0.toNat < 2 ^ 32 ∧ min v.arg0.toNat v.avail = 2 ∧
      v.arg1.toNat + (2 - 1) * 2 < v.pcmLen.toNat :=
  ⟨_, _, r2_inv, rfl, by decide, rfl, by decide, by decide, by decide⟩

theorem witness_OnlyElementsBelowPcmLenAreWritten :
    let s := r2.withArgs 2 0
    ∃ t, s.Inv ∧ exec (.readSamples false) s = .next t ∧ Memory.readByte t.pcm 3 ≠ Memory.readByte s.pcm 3 :=
  ⟨_, inv_withArgs _ _ r2_inv, rfl, by decide⟩

theorem witness_BlockNeverReadsThePcmArray :
    (after (exec (.readSamples false) { (r2.withArgs 2 0) with pcm := [] })).pcm = [(0, 0), (1, 0), (2, 125), (3, 0)] ∧
    (after (exec (.readSamples false) { (r2.withArgs 2 0) with pcm := [(0, 9), (2, 7)] })).pcm =
      [(0, 0), (1, 0), (2, 125), (3, 0)] := by
  decide

theorem witness_AssembledLineRunsItsCommand :
    b48.cfg.legal = true ∧
    HostLine.command (.addDelta 0 0xFFFFFFFF) b48 =
      some { instr := .addDelta, arg0 := 0, arg1 := 0xFFFFFFFFFFFFFFFF } := by
  decide

end Sys2Proof.Tests
end

section
/-! The statements of 00_scope.md: an illegal configuration is refused (O7), and no command reads the PCM array (O56). -/

namespace Sys2Proof.Machine

/-! ### Legal configurations (R11, R141) -/

theorem kernelLegal_iff (maxTaps : Nat) (k : Kernel) :
    Kernel.legal maxTaps k = true ↔ 1 ≤ k.length ∧ k.length ≤ maxTaps ∧ (∀ c ∈ k, -2 ^ 31 ≤ c ∧ c < 2 ^ 31) ∧
      k.sum = 32768 ∧ k.reverse = k := by
  simp only [Kernel.legal, kernelUnity, Bool.and_eq_true, List.all_eq_true, decide_eq_true_eq, and_assoc]

/-- R141's items 1 to 4, each by the way a kernel breaks it. -/
theorem not_kernelLegal {maxTaps : Nat} {k : Kernel}
    (h : k = [] ∨ maxTaps < k.length ∨ k.sum ≠ 32768 ∨ k.reverse ≠ k ∨ ∃ c ∈ k, c < -2 ^ 31 ∨ 2 ^ 31 ≤ c) :
    Kernel.legal maxTaps k ≠ true := by
  intro hlegal
  obtain ⟨htap, hmax, hrange, hsum, hrev⟩ := (kernelLegal_iff maxTaps k).1 hlegal
  rcases h with rfl | h | h | h | ⟨c, hc, h⟩
  · simp at htap
  · omega
  · exact h hsum
  · exact h hrev
  · have := hrange c hc
    omega

theorem kernelBankLegal_kr {maxTaps : Nat} {b : KernelBank} (h : b.legal maxTaps = true) (i : RateIdx) :
    Kernel.legal maxTaps (KernelBank.kr b i) = true := by
  simp only [KernelBank.legal, Bool.and_eq_true] at h
  obtain ⟨⟨⟨⟨⟨⟨h0, h1⟩, h2⟩, h3⟩, h4⟩, -⟩, -⟩ := h
  cases i
  case r48000 => exact h0
  case r96000 => exact h1
  case r192000 => exact h2
  case r384000 => exact h3
  case r768000 => exact h4

theorem kernelBankLegal_kc {maxTaps : Nat} {b : KernelBank} (h : b.legal maxTaps = true) {e : CutoffKernel}
    (he : e ∈ b.kc) : e.cutoff ≠ 0 ∧ Kernel.legal maxTaps e.kernel = true := by
  simp only [KernelBank.legal, Bool.and_eq_true, List.all_eq_true, decide_eq_true_eq] at h
  obtain ⟨⟨-, hkc⟩, -⟩ := h
  exact hkc e he

theorem configLegal_iff (cfg : Config) :
    cfg.legal = true ↔ 1 ≤ cfg.size ∧ cfg.size ≤ 2 ^ 20 ∧ 1 ≤ cfg.maxTaps ∧ cfg.maxTaps ≤ 256 ∧ cfg.headroom ≤ 256 ∧
      cfg.leakShift ≤ 15 ∧ cfg.bank.legal cfg.maxTaps = true := by
  simp only [Config.legal, Bool.and_eq_true, decide_eq_true_eq, and_assoc]

theorem step_of_not_legal {s : State} (h : s.cfg.legal ≠ true) : step s = .refused .illegalConfiguration := if_neg h

/-! ### The bytes READ_SAMPLES writes (R19, R82, R200) -/

/-- Byte writes performed in their order. -/
def writeBytes (writes : List Host.Cell) (m : Memory) : Memory :=
  writes.foldl (fun n w => Memory.writeByte n w.1 w.2) m

/-- The two byte writes of sample j of a READ_SAMPLES from `s`, the low byte first. -/
def sampleWrites (s : State) (base stride j : Nat) : List Host.Cell :=
  let v := BitVec.ofInt 16 (sampleOf (integratorBefore s j))
  [(pcmAddress s.cfg (base + j * stride), v.extractLsb' 0 8),
   (pcmAddress s.cfg (base + j * stride) + 1, v.extractLsb' 8 8)]

theorem writeBytes_append (u w : List Host.Cell) (m : Memory) :
    writeBytes (u ++ w) m = writeBytes w (writeBytes u m) := List.foldl_append

theorem writeBytes_sampleWrites (s : State) (base stride j : Nat) (m : Memory) :
    writeBytes (sampleWrites s base stride j) m =
      pcmWrite s.cfg m (base + j * stride) (BitVec.ofInt 16 (sampleOf (integratorBefore s j))) := rfl

/-- The sample loop performs the writes of its samples in order and looks at no byte of the array. -/
theorem readLoop_snd (s : State) (base stride n k : Nat) (m : Memory) :
    (readLoop s base stride n k (integratorBefore s k) m).2 =
      writeBytes ((List.range' k n).flatMap (sampleWrites s base stride)) m := by
  induction n generalizing k m with
  | zero => rfl
  | succ n ih =>
    rw [readLoop, integrate_integratorBefore, ih, List.range'_succ, List.flatMap_cons, writeBytes_append,
      writeBytes_sampleWrites]

/-- The sample loop starts from the array it is given, not from the state's. -/
theorem readLoop_pcm (s : State) (p : Memory) (base stride n k : Nat) (integ : Word) (m : Memory) :
    readLoop { s with pcm := p } base stride n k integ m = readLoop s base stride n k integ m := by
  induction n generalizing k integ m with
  | zero => rfl
  | succ n ih => exact ih _ _ _

/-- What READ_SAMPLES' loop answers from an array: the integrator after n samples, and the array with their bytes
written. -/
theorem readLoop_eq (s : State) (base stride n : Nat) (m : Memory) :
    readLoop s base stride n 0 s.integrator m =
      (integratorBefore s n, writeBytes ((List.range n).flatMap (sampleWrites s base stride)) m) := by
  rw [List.range_eq_range']
  exact Prod.ext ((readLoop_fst s base stride n 0 m).trans (by rw [Nat.zero_add]))
    (readLoop_snd s base stride n 0 m)

/-! ### What a command answers, whatever the array holds (R81) -/

/-- A meaning, as a function of the array it runs on, answers one next state and one list of byte writes for every
array: it does not read the array. -/
def AnswersUnread (f : Memory → Host.Outcome State Fault Refusal) : Prop :=
  ∃ (t : State) (writes : List Host.Cell), ∀ m : Memory, f m = .next { t with pcm := writeBytes writes m }

theorem answersUnread_next (t : State) : AnswersUnread fun m => .next { t with pcm := m } := ⟨t, [], fun _ => rfl⟩

theorem answersUnread_rejected (c : Cause) (s : State) : AnswersUnread fun m => rejected c { s with pcm := m } :=
  answersUnread_next (reject c s)

/-- A check that does not look at the array decides between branches that do not read it. How it is decided may
still be written with the state, and so with the array, in it. -/
theorem AnswersUnread.branch {c : Prop} {dec : Memory → Decidable c}
    {f g : Memory → Host.Outcome State Fault Refusal} (hf : AnswersUnread f) (hg : AnswersUnread g) :
    AnswersUnread fun m => @ite _ c (dec m) (f m) (g m) := by
  by_cases hc : c
  · simpa only [if_pos hc] using hf
  · simpa only [if_neg hc] using hg

theorem execSetRates_answersUnread (s : State) : AnswersUnread fun m => execSetRates { s with pcm := m } := by
  dsimp only [execSetRates]
  exact .branch (answersUnread_rejected _ s) (.branch (answersUnread_rejected _ s) (.branch (answersUnread_rejected _ s)
    (answersUnread_next { s with
      factor := factorOf s.arg0 s.arg1, sampleRate := s.arg1, ready := true
      ksel := selectKernel s.cfg s.arg1 s.cutoff })))

theorem execSetCutoff_answersUnread (s : State) : AnswersUnread fun m => execSetCutoff { s with pcm := m } := by
  dsimp only [execSetCutoff]
  refine .branch ?_ (answersUnread_rejected _ s)
  cases operandU32 s.arg0 with
  | none => exact answersUnread_rejected _ s
  | some cut => exact answersUnread_next { s with cutoff := cut, ksel := selectKernel s.cfg s.sampleRate cut }

theorem execClear_answersUnread (s : State) : AnswersUnread fun m => execClear { s with pcm := m } :=
  answersUnread_next { s with acc := [], offset := s.factor / 2, avail := 0, integrator := 0 }

theorem execClocksNeeded_answersUnread (s : State) :
    AnswersUnread fun m => execClocksNeeded { s with pcm := m } := by
  dsimp only [execClocksNeeded]
  cases operandU32 s.arg0 with
  | none => exact answersUnread_rejected _ s
  | some n =>
    exact .branch (answersUnread_next (setResult 0 s)) (.branch (answersUnread_rejected _ s)
      (.branch (answersUnread_rejected _ s) (answersUnread_next (setResult (ticksFor s n.toNat) s))))

theorem execAddDelta_answersUnread (s : State) : AnswersUnread fun m => execAddDelta { s with pcm := m } := by
  dsimp only [execAddDelta, deltaBase, positionAt, activeKernel]
  cases operandU32 s.arg0 with
  | none => exact answersUnread_rejected _ s
  | some t =>
    cases operandS32 s.arg1 with
    | none => exact answersUnread_rejected _ s
    | some d =>
      exact .branch (answersUnread_next s) (.branch (answersUnread_rejected _ s) (.branch (answersUnread_rejected _ s)
        (answersUnread_next { s with acc := accAddTaps s.acc (deltaBase s t.toNat) d (activeKernel s) })))

theorem execEndFrame_answersUnread (s : State) : AnswersUnread fun m => execEndFrame { s with pcm := m } := by
  dsimp only [execEndFrame, positionAt]
  cases operandU32 s.arg0 with
  | none => exact answersUnread_rejected _ s
  | some t =>
    exact .branch (answersUnread_next s) (.branch (answersUnread_rejected _ s) (.branch (answersUnread_rejected _ s)
      (answersUnread_next { s with
        avail := s.avail + positionAt s t.toNat / timeUnit, offset := positionAt s t.toNat % timeUnit })))

theorem execSamplesAvail_answersUnread (s : State) :
    AnswersUnread fun m => execSamplesAvail { s with pcm := m } := answersUnread_next (setResult s.avail s)

/-- READ_SAMPLES writes its samples' bytes and looks at no byte of the array. -/
theorem execReadSamples_answersUnread (stereo : Bool) (s : State) :
    AnswersUnread fun m => execReadSamples stereo { s with pcm := m } := by
  dsimp only [execReadSamples, readCount]
  cases operandU32 s.arg0 with
  | none => exact answersUnread_rejected _ s
  | some count =>
    refine .branch (answersUnread_next (setResult 0 s)) (.branch (answersUnread_rejected _ s) ?_)
    refine ⟨setResult (readCount s count) { s with
      integrator := integratorBefore s (readCount s count), acc := accRetire s.acc (readCount s count)
      avail := s.avail - readCount s count },
      (List.range (readCount s count)).flatMap (sampleWrites s s.arg1.toNat (strideOf stereo)), fun m => ?_⟩
    simp only [readLoop_pcm s, readLoop_eq]
    rfl

/-- No command reads the PCM array (R81). -/
theorem exec_answersUnread (i : Instr) (s : State) : AnswersUnread fun m => exec i { s with pcm := m } := by
  cases i with
  | setRates => exact execSetRates_answersUnread s
  | setCutoff => exact execSetCutoff_answersUnread s
  | clear => exact execClear_answersUnread s
  | clocksNeeded => exact execClocksNeeded_answersUnread s
  | addDelta => exact execAddDelta_answersUnread s
  | endFrame => exact execEndFrame_answersUnread s
  | samplesAvail => exact execSamplesAvail_answersUnread s
  | readSamples stereo => exact execReadSamples_answersUnread stereo s

/-! ### The obligations -/

/-- Settles O56: the next state and the byte writes are chosen before the array, command by command. -/
theorem blockNeverReadsThePcmArray : Obligations.BlockNeverReadsThePcmArray := by
  unfold Obligations.BlockNeverReadsThePcmArray
  exact exec_answersUnread

/-- Settles O7: each of the listed breaches contradicts one conjunct of a legal configuration. -/
theorem illegalConfigurationIsRefused : Obligations.IllegalConfigurationIsRefused := by
  unfold Obligations.IllegalConfigurationIsRefused
  intro s h
  refine step_of_not_legal fun hlegal => ?_
  obtain ⟨hsize, hsizeMax, htaps, htapsMax, hhead, hleak, hbank⟩ := (configLegal_iff s.cfg).1 hlegal
  rcases h with h | h | h | h | h | h | ⟨i, hkr⟩ | ⟨e, he, hcut | hkc⟩
  iterate 6 · omega
  · exact not_kernelLegal hkr (kernelBankLegal_kr hbank i)
  · exact (kernelBankLegal_kc hbank he).1 hcut
  · exact not_kernelLegal hkc (kernelBankLegal_kc hbank he).2

end Sys2Proof.Machine
end

section
/-! The statements of 10_state.md: every step keeps the invariant (O23, O22), what the registers read and what a write
does (O5, O9, O12 to O17), which command or step writes which field (O24, O25, O26, O55), and KSEL (O18). -/

namespace Sys2Proof.Machine

/-! ### The selection at reset (R44, R145) -/

/-- No rate is 0 Hz, so the reset value of SAMPLE_RATE has no rate index (R44, R144). -/
theorem rateIndexOf_zero : rateIndexOf 0 = none := by decide

theorem selectKernel_zero (cfg : Config) (cut : BitVec 32) :
    selectKernel cfg 0 cut = { source := .dirac none, taps := 1 } := by
  simp only [selectKernel, rateIndexOf_zero]

/-! ### The factor SET_RATES computes (R162, R163) -/

theorem isPositive64_significand_pos {x : Word} (h : isPositive64 x = true) : 0 < significand x := by
  simp only [isPositive64, Bool.and_eq_true, decide_eq_true_eq] at h
  exact Nat.pos_of_ne_zero h.2

theorem ceilDiv_pos {a b : Nat} (ha : 0 < a) (hb : 0 < b) : 0 < ceilDiv a b := by
  have := ceilDiv_le_iff (a := a) hb 0
  omega

/-- The factor of two positive rates is at least 1 (R51). -/
theorem factorOf_pos {cr sr : Word} (hcr : isPositive64 cr = true) (hsr : isPositive64 sr = true) :
    0 < factorOf cr sr := by
  have hc := isPositive64_significand_pos hcr
  have hs := isPositive64_significand_pos hsr
  unfold factorOf
  split
  · exact ceilDiv_pos (by positivity) hc
  · exact ceilDiv_pos (by positivity) (by positivity)

/-! ### ERR and LAST_ERR (R35, R220, R224) -/

theorem ofNat_code_ne_zero (c : Cause) : BitVec.ofNat 8 c.code ≠ 0 := by cases c <;> decide

theorem toNat_ofNat_code_le (c : Cause) : (BitVec.ofNat 8 c.code).toNat ≤ 7 := by cases c <;> decide

theorem ne_zero_of_clearErr {v : Word} {err : BitVec 7} (h : clearErr v err ≠ 0) : err ≠ 0 := by
  rintro rfl
  exact h BitVec.zero_and

/-! ### What keeps the invariant (R51) -/

section
variable {s : State}

theorem State.Inv.ready_of_avail_pos (h : s.Inv) (ha : 0 < s.avail) : s.ready = true := by
  by_contra hr
  obtain ⟨-, -, havail, -⟩ := h.uninitFresh (by simpa using hr)
  omega

/-- R51 at reset, whatever PCM array and accesses the host keeps. -/
theorem inv_resetBlock (hcfg : s.cfg.legal = true) (hpcm : Memory.wf s.pcm = true) : (resetBlock s).Inv where
  cfgLegal := hcfg
  factorPos := by simp [State.resetOf]
  factorMax := by simp [State.resetOf]
  offsetLt := by simp [State.resetOf]
  availLe := Nat.zero_le _
  selected := (selectKernel_zero s.cfg 0).symm
  cutoffAbsent := fun _ => rfl
  accCanonical := accWf_nil _
  pcmCanonical := hpcm
  lastErrCode := Nat.zero_le 7
  errRecorded := fun h => absurd rfl h
  uninitFresh := fun _ => ⟨rfl, rfl, rfl, rfl, rfl, rfl⟩

/-- Pending accesses and the response are no part of the invariant. -/
theorem State.Inv.withHost (h : s.Inv) (p : List HostAccess) (r : HostResponse) :
    State.Inv { s with pending := p, response := r } := { h with }

theorem State.Inv.setResult (h : s.Inv) (v : Nat) : (setResult v s).Inv := { h with }

theorem State.Inv.reject (h : s.Inv) (c : Cause) : (reject c s).Inv :=
  { h with
    lastErrCode := toNat_ofNat_code_le c
    errRecorded := fun _ => ofNat_code_ne_zero c }

end

section
variable {s t : State} (h : s.Inv)
include h

theorem execSetRates_inv (hx : execSetRates s = .next t) : t.Inv := by
  rcases execSetRates_cases hx with rfl | ⟨-, -, hcr, hsr, hmax, rfl⟩
  · exact h.reject _
  · exact { h with
      factorPos := factorOf_pos hcr hsr
      factorMax := hmax
      selected := rfl
      uninitFresh := fun hr => by cases hr }

theorem execSetCutoff_inv (hx : execSetCutoff s = .next t) : t.Inv := by
  rcases execSetCutoff_cases hx with ⟨-, rfl⟩ | ⟨-, -, rfl⟩ | ⟨cut, hf, -, rfl⟩
  · exact h.reject _
  · exact h.reject _
  · exact { h with
      selected := rfl
      cutoffAbsent := fun hf' => by simp [hf] at hf' }

theorem execClear_inv (hx : execClear s = .next t) : t.Inv := by
  obtain rfl := execClear_cases hx
  have hmax := h.factorMax
  exact { h with
    offsetLt := by simp only; omega
    availLe := Nat.zero_le _
    accCanonical := accWf_nil _
    uninitFresh := fun hr => by
      obtain ⟨hfac, -, -, -, -, hsr⟩ := h.uninitFresh hr
      exact ⟨hfac, by simp only [hfac]; decide, rfl, rfl, rfl, hsr⟩ }

theorem execClocksNeeded_inv (hx : execClocksNeeded s = .next t) : t.Inv := by
  rcases execClocksNeeded_cases hx with ⟨c, rfl⟩ | ⟨-, rfl⟩ | ⟨n, -, -, -, -, rfl⟩
  · exact h.reject c
  · exact h.setResult _
  · exact h.setResult _

theorem execAddDelta_inv (hx : execAddDelta s = .next t) : t.Inv := by
  rcases execAddDelta_cases hx with ⟨c, rfl⟩ | ⟨n, -, -, rfl⟩ | ⟨n, d, -, -, -, hr, hfit, rfl⟩
  · exact h.reject c
  · exact h
  · exact { h with
      accCanonical := accWf_accAddTaps d _ h.accCanonical hfit
      uninitFresh := fun hr' => by simp [hr] at hr' }

theorem execEndFrame_inv (hx : execEndFrame s = .next t) : t.Inv := by
  rcases execEndFrame_cases hx with ⟨c, rfl⟩ | ⟨-, rfl⟩ | ⟨n, -, -, hr, hfit, rfl⟩
  · exact h.reject c
  · exact h
  · exact { h with
      offsetLt := Nat.mod_lt _ (by decide)
      availLe := hfit
      uninitFresh := fun hr' => by simp [hr] at hr' }

theorem execSamplesAvail_inv (hx : execSamplesAvail s = .next t) : t.Inv := by
  obtain rfl := execSamplesAvail_cases hx
  exact h.setResult _

/-- A READ_SAMPLES that retires a sample had one available, so the block was Ready. -/
theorem execReadSamples_inv {st : Bool} (hx : execReadSamples st s = .next t) : t.Inv := by
  rcases execReadSamples_cases hx with ⟨c, rfl⟩ | ⟨n, -, -, rfl⟩ | ⟨n, -, hc, -, rfl⟩
  · exact h.reject c
  · exact h.setResult _
  · have hcount : readCount s n ≤ s.avail := Nat.min_le_right _ _
    have hr : s.ready = true := h.ready_of_avail_pos (by omega)
    refine State.Inv.setResult ?_ _
    exact { h with
      availLe := Nat.le_trans (Nat.sub_le _ _) h.availLe
      accCanonical := accWf_accRetire _ h.accCanonical
      pcmCanonical := wf_readLoop _ _ _ _ _ _ h.pcmCanonical
      uninitFresh := fun hr' => by simp [hr] at hr' }

theorem exec_inv {i : Instr} (hx : exec i s = .next t) : t.Inv := by
  cases i with
  | setRates => exact execSetRates_inv h hx
  | setCutoff => exact execSetCutoff_inv h hx
  | clear => exact execClear_inv h hx
  | clocksNeeded => exact execClocksNeeded_inv h hx
  | addDelta => exact execAddDelta_inv h hx
  | endFrame => exact execEndFrame_inv h hx
  | samplesAvail => exact execSamplesAvail_inv h hx
  | readSamples st => exact execReadSamples_inv h hx

theorem execute_inv {v : Word} (hx : execute v s = .next t) : t.Inv := by
  rcases execute_cases hx with rfl | ⟨i, -, hi⟩
  · exact h.reject _
  · exact exec_inv h hi

theorem regWrite_inv {off n : Nat} {v : Word} (hx : regWrite off n v s = .next t) : t.Inv := by
  rcases regWrite_cases hx with ⟨-, rfl⟩ | rfl | rfl | rfl | rfl | rfl | rfl | ⟨-, -, hv⟩
  · exact h.reject _
  · exact h
  · exact { h with errRecorded := fun he => h.errRecorded (ne_zero_of_clearErr he) }
  iterate 4 · exact { h with }
  · exact execute_inv h hv

theorem perform_inv {a : HostAccess} (hx : perform a s = .next t) : t.Inv := by
  rcases perform_cases hx with ⟨r, rfl⟩ | ⟨r, rfl⟩ | rfl | ⟨idx, v, -, rfl⟩ | ⟨-, rfl⟩ | ⟨addr, n, v, off, -, -, hw⟩
  · exact h.withHost _ r
  · exact (h.reject _).withHost _ r
  · exact h
  · exact { h with pcmCanonical := wf_pcmWrite _ _ _ h.pcmCanonical }
  · exact inv_resetBlock h.cfgLegal h.pcmCanonical
  · exact regWrite_inv h hw

theorem step_inv (hx : step s = .next t) : t.Inv := by
  obtain ⟨-, ⟨-, rfl⟩ | ⟨a, rest, -, hp⟩⟩ := step_cases hx
  · exact h
  · exact perform_inv (h.withHost rest _) hp

end

/-- Settles O23: each command, each access and so each step keeps every field of the invariant. -/
theorem everyStepKeepsTheInvariant : Obligations.EveryStepKeepsTheInvariant := by
  unfold Obligations.EveryStepKeepsTheInvariant
  exact fun s t h hx => step_inv h hx

/-- Settles O22: the reset state is a reset block with nothing pending and nothing written. -/
theorem resetMeetsTheInvariant : Obligations.ResetMeetsTheInvariant := by
  unfold Obligations.ResetMeetsTheInvariant
  exact fun cfg hcfg => inv_resetBlock (s := State.resetOf cfg) hcfg wf_nil

/-! ### The register map (R57) -/

/-- An offset names its register of the map, a slot of the ACC window, or nothing. -/
theorem windowSlot_cases (cfg : Config) (off : Nat) :
    (off, windowSlot cfg off) ∈ registerMap ∨ (∃ j, windowSlot cfg off = .acc j) ∨ windowSlot cfg off = .reserved := by
  unfold windowSlot
  split
  · rename_i r hr
    exact .inl (mem_of_cellsGet hr)
  · split
    · exact .inr (.inl ⟨_, rfl⟩)
    · exact .inr (.inr rfl)

/-- The named registers end at offset 0x088. -/
theorem cellsGet_registerMap_eq_none {off : Nat} (h : 0x090 ≤ off) : cellsGet registerMap off = none := by
  have hmap : ∀ e ∈ registerMap, e.1 < 0x090 := by decide
  exact cellsGet_eq_none fun e he => by have := hmap e he; omega

theorem windowSlot_acc {cfg : Config} {j : Nat} (h : j < cfg.depth) : windowSlot cfg (0x1000 + 8 * j) = .acc j := by
  simp only [windowSlot, cellsGet_registerMap_eq_none (show 0x090 ≤ 0x1000 + 8 * j by omega)]
  rw [if_pos (by omega)]
  congr 1
  omega

theorem windowSlot_reserved {cfg : Config} {off : Nat} (h : 0x090 ≤ off)
    (hacc : off < 0x1000 ∨ 0x1000 + 8 * cfg.depth ≤ off) : windowSlot cfg off = .reserved := by
  simp only [windowSlot, cellsGet_registerMap_eq_none h]
  exact if_neg (by omega)

/-- What a write has an effect on (R56, R57). -/
def hostWritable : List WindowSlot := [.status, .irqEn, .arg0, .arg1, .command, .pcmLen]

theorem writeSlot_of_not_hostWritable {w : WindowSlot} (v : Word) (s : State) (h : w ∉ hostWritable) :
    writeSlot w v s = .next s := by
  unfold writeSlot
  split
  iterate 6 · simp [hostWritable] at h
  all_goals rfl

/-- Only the six writable registers' offsets name something a write has an effect on. -/
theorem windowSlot_not_hostWritable {cfg : Config} {off : Nat}
    (h : off ∉ [0x010, 0x018, 0x020, 0x028, 0x038, 0x078]) : windowSlot cfg off ∉ hostWritable := by
  have hmap : ∀ e ∈ registerMap, e.2 ∈ hostWritable → e.1 ∈ [0x010, 0x018, 0x020, 0x028, 0x038, 0x078] := by decide
  intro hw
  rcases windowSlot_cases cfg off with hm | ⟨j, hj⟩ | hr
  · exact h (hmap _ hm hw)
  · simp [hj, hostWritable] at hw
  · simp [hr, hostWritable] at hw

/-- The last slot of the ACC window lies in the 24-bit window in every legal configuration (R11, R13). -/
theorem accOffset_lt {cfg : Config} (hl : cfg.legal = true) {j : Nat} (hj : j < cfg.depth) :
    0x1000 + 8 * j < 2 ^ 24 := by
  obtain ⟨-, hsize, -, htaps, hhead, -⟩ := (configLegal_iff cfg).1 hl
  unfold Config.depth at hj
  omega

/-! ### One register access of the host (R84, R88) -/

theorem windowOffset_base_add (cfg : Config) {off : Nat} (h : off < 2 ^ 24) :
    windowOffset cfg (cfg.blrsBase + off) = some off := by
  simp only [windowOffset, windowBytes]
  rw [if_pos (by omega)]
  congr 1
  omega

theorem step_of_pending {s : State} {a : HostAccess} {rest : List HostAccess} (hl : s.cfg.legal = true)
    (hp : s.pending = a :: rest) : step s = perform a { s with pending := rest } := by
  simp only [step, performNext, hl, hp, if_true]

/-- No register's word depends on the pending accesses. -/
theorem readSlot_pending (w : WindowSlot) (s : State) (p : List HostAccess) :
    readSlot w { s with pending := p } = readSlot w s := by
  cases w <;> rfl

section
variable {s : State} {off : Nat} {rest : List HostAccess} (hl : s.cfg.legal = true) (hoff : off < 2 ^ 24)
  (halign : off % 8 = 0)
include hl hoff halign

/-- A well-formed read answers the word of what its offset names. -/
theorem step_regRead (hp : s.pending = .regRead (s.cfg.blrsBase + off) 8 :: rest) :
    step s = .next { s with pending := rest, response := .word (readSlot (windowSlot s.cfg off) s) } := by
  simp only [step_of_pending hl hp, perform, windowOffset_base_add _ hoff, regRead, accessOk, halign, and_self,
    decide_true, if_true, readSlot_pending]

/-- A well-formed write is the write of what its offset names. -/
theorem step_regWrite {v : Word} (hp : s.pending = .regWrite (s.cfg.blrsBase + off) 8 v :: rest) :
    step s = writeSlot (windowSlot s.cfg off) v { s with pending := rest } := by
  simp only [step_of_pending hl hp, perform, windowOffset_base_add _ hoff, regWrite, accessOk, halign, and_self,
    decide_true, if_true]

end

theorem core_run_two {s u t : State} (hs : step s = .next u) (hu : step u = .next t) : core.run 2 s = .next t := by
  have hs' : core.step s = .next u := hs
  have hu' : core.step u = .next t := hu
  simp only [Host.Core.run, hs', hu']

/-- Writing a register and reading it back: the write's own effect, and in the response the register's new word. -/
theorem run_write_read {s u : State} {off : Nat} {v : Word} (rest : List HostAccess) (hl : s.cfg.legal = true)
    (hoff : off < 2 ^ 24) (halign : off % 8 = 0) (hcfg : u.cfg = s.cfg)
    (hw : ∀ p, writeSlot (windowSlot s.cfg off) v { s with pending := p } = .next { u with pending := p }) :
    core.run 2 { s with
        pending := .regWrite (s.cfg.blrsBase + off) 8 v :: .regRead (s.cfg.blrsBase + off) 8 :: rest } =
      .next { u with pending := rest, response := .word (readSlot (windowSlot s.cfg off) u) } := by
  have hwrite := step_regWrite (v := v) (s := { s with
    pending := .regWrite (s.cfg.blrsBase + off) 8 v :: .regRead (s.cfg.blrsBase + off) 8 :: rest }) hl hoff halign rfl
  have hread := step_regRead (s := { u with pending := .regRead (s.cfg.blrsBase + off) 8 :: rest })
    (hcfg ▸ hl) hoff halign (by rw [hcfg])
  rw [readSlot_pending] at hread
  have hslot : windowSlot u.cfg off = windowSlot s.cfg off := by rw [hcfg]
  exact core_run_two (hwrite.trans (hw _)) (hslot ▸ hread)

/-- Settles O12: the offset names nothing a write has an effect on. -/
theorem readOnlyAndReservedWritesAreIgnored : Obligations.ReadOnlyAndReservedWritesAreIgnored := by
  unfold Obligations.ReadOnlyAndReservedWritesAreIgnored
  intro s off v rest hl hoff halign hro hp
  rw [step_regWrite hl hoff halign hp]
  exact writeSlot_of_not_hostWritable v _ (windowSlot_not_hostWritable hro)

/-- Settles O16: the slot's offset lies in the window and names the slot. -/
theorem accWindowReadsTheSlots : Obligations.AccWindowReadsTheSlots := by
  unfold Obligations.AccWindowReadsTheSlots
  intro s j rest hl hj hp
  rw [step_regRead hl (accOffset_lt hl hj) (by omega) (by rw [hp, Nat.add_assoc]), windowSlot_acc hj]
  rfl

/-- Settles O9: one rule for a read at any offset, and the map's register at each. -/
theorem registerReadsHaveNoSideEffect : Obligations.RegisterReadsHaveNoSideEffect := by
  unfold Obligations.RegisterReadsHaveNoSideEffect
  intro s rest hl readAnswers
  have answers : ∀ off, off < 2 ^ 24 → off % 8 = 0 → readAnswers off (readSlot (windowSlot s.cfg off) s) := by
    intro off hoff halign
    have hstep := step_regRead (s := { s with pending := .regRead (s.cfg.blrsBase + off) 8 :: rest }) hl hoff halign rfl
    rwa [readSlot_pending] at hstep
  refine ⟨fun off hoff halign => ⟨_, answers off hoff halign⟩, ?_⟩
  rw [Nat.add_assoc]
  refine ⟨?_, ?_, ?_, ?_, ?_, ?_, ?_, ?_, ?_, ?_, ?_, ?_, ?_, ?_, ?_, ?_, ?_, ?_⟩
  all_goals exact answers _ (by decide) (by decide)

/-- Settles O5: the COMMAND write's word is executed, and execution of a decodable word is exec. -/
theorem stepRunsTheWrittenCommand : Obligations.StepRunsTheWrittenCommand := by
  unfold Obligations.StepRunsTheWrittenCommand
  intro s v i rest hl hp hd
  rw [step_regWrite hl (by decide) (by decide) hp]
  change execute v _ = _
  simp only [execute, hd]

/-! ### The fields of the register words (R33 to R36, R45) -/

/-- A word of two fields as a number: the high field above the low one. -/
theorem toNat_append_fields {m n : Nat} (x : BitVec m) (y : BitVec n) :
    (x ++ y).toNat = x.toNat * 2 ^ n + y.toNat := by
  rw [BitVec.toNat_append, ← Nat.shiftLeft_add_eq_or_of_lt y.isLt, Nat.shiftLeft_eq]

/-- A word by the bits above 14, bits [14:8] and the bits below 8. -/
theorem word_eq_fields (v : Word) : v = v.extractLsb' 15 49 ++ errField v ++ v.extractLsb' 0 8 := by
  rw [errField, BitVec.extractLsb'_append_extractLsb'_eq_extractLsb' (by rfl),
    BitVec.extractLsb'_append_extractLsb'_eq_extractLsb' (by rfl), BitVec.extractLsb'_eq_self]

/-- The mask of bits [14:8] keeps the field a STATUS or IRQ_EN write uses. -/
theorem and_errMask (v : Word) : v &&& 0x7F00#64 = 0#49 ++ errField v ++ 0#8 := by
  have hmask : (0x7F00#64 : Word) = 0#49 ++ BitVec.allOnes 7 ++ 0#8 := by decide
  conv_lhs => rw [word_eq_fields v, hmask, BitVec.and_append, BitVec.and_append]
  rw [BitVec.and_zero, BitVec.and_zero, BitVec.and_allOnes]

/-- STATUS by the bits above 14, ERR and the bits below 8. -/
theorem statusWord_eq (s : State) : statusWord s =
    (0#40 ++ s.lastErr ++ 0#1) ++ s.err ++ (0#7 ++ BitVec.ofBool s.ready) := by
  rw [statusWord, BitVec.append_assoc]
  rfl

theorem statusWord_clearErr (s : State) (v : Word) :
    statusWord { s with err := clearErr v s.err } = statusWord s &&& ~~~(v &&& 0x7F00#64) := by
  rw [and_errMask, statusWord_eq, statusWord_eq, BitVec.not_append, BitVec.not_append, BitVec.and_append,
    BitVec.and_append, BitVec.not_zero, BitVec.not_zero, BitVec.and_allOnes, BitVec.and_allOnes]
  rfl

theorem statusWord_ready (s : State) : (statusWord s).getLsbD 0 = s.ready := by
  rw [statusWord, BitVec.getLsbD_append, if_pos (by decide)]
  simp

theorem statusWord_err (s : State) (c : Cause) : (statusWord s).getLsbD (7 + c.code) = s.err.getLsbD (c.code - 1) := by
  have hcode : 1 ≤ c.code ∧ c.code ≤ 7 := by cases c <;> decide
  rw [statusWord_eq, BitVec.getLsbD_append, if_neg (by omega), BitVec.getLsbD_append, if_pos (by omega)]
  congr 1
  omega

theorem statusWord_lastErr (s : State) : (statusWord s).extractLsb' 16 8 = s.lastErr := by
  rw [statusWord]
  iterate 4 rw [BitVec.extractLsb'_append_eq_of_le (by decide)]
  exact BitVec.extractLsb'_append_eq_right

/-- Settles O14: a write and a read of the same register, and IRQ_EN's word is the written one under its mask. -/
theorem hostRegistersHoldWhatIsWritten : Obligations.HostRegistersHoldWhatIsWritten := by
  unfold Obligations.HostRegistersHoldWhatIsWritten
  intro s v rest hl twoSteps
  refine ⟨?_, ?_, ?_, ?_⟩
  · exact run_write_read (u := { s with arg0 := v }) rest hl (by decide) (by decide) rfl fun _ => rfl
  · exact run_write_read (u := { s with arg1 := v }) rest hl (by decide) (by decide) rfl fun _ => rfl
  · exact run_write_read (u := { s with pcmLen := v }) rest hl (by decide) (by decide) rfl fun _ => rfl
  · rw [and_errMask]
    exact run_write_read (u := { s with irqEn := errField v }) rest hl (by decide) (by decide) rfl fun _ => rfl

/-- Settles O15: STATUS by its fields, and a write and a read of it. -/
theorem statusIsWriteOneToClear : Obligations.StatusIsWriteOneToClear := by
  unfold Obligations.StatusIsWriteOneToClear
  intro s v rest hl
  refine ⟨statusWord_ready s, statusWord_err s, statusWord_lastErr s, _,
    run_write_read (u := { s with err := clearErr v s.err }) rest hl (by decide) (by decide) rfl fun _ => rfl, ?_, ?_⟩
  · rw [← statusWord_clearErr]
    rfl
  · exact statusWord_clearErr s v

/-! ### Reserved bits (R56) -/

theorem statusWord_reserved (s : State) : statusWord s &&& 0xFFFFFFFFFF0080FE#64 = 0 := by
  have hmask : (0xFFFFFFFFFF0080FE#64 : Word) =
    BitVec.allOnes 40 ++ 0#8 ++ 1#1 ++ 0#7 ++ BitVec.allOnes 7 ++ 0#1 := by decide
  rw [statusWord, hmask]
  iterate 5 rw [BitVec.and_append]
  simp

theorem irqEnWord_reserved (s : State) : irqEnWord s &&& 0xFFFFFFFFFFFF80FF#64 = 0 := by
  have hmask : (0xFFFFFFFFFFFF80FF#64 : Word) = BitVec.allOnes 49 ++ 0#7 ++ BitVec.allOnes 8 := by decide
  rw [irqEnWord, hmask]
  iterate 2 rw [BitVec.and_append]
  simp

theorem idWord_reserved (cfg : Config) : idWord cfg &&& 0x00000000FFFC0000#64 = 0 := by
  have hmask : (0x00000000FFFC0000#64 : Word) = 0#32 ++ BitVec.allOnes 14 ++ 0#1 ++ 0#1 ++ 0#16 := by decide
  rw [idWord, hmask]
  iterate 4 rw [BitVec.and_append]
  simp

theorem configWord_reserved (cfg : Config) : configWord cfg &&& 0xFF00000000000000#64 = 0 := by
  have hmask : (0xFF00000000000000#64 : Word) = BitVec.allOnes 8 ++ 0#8 ++ 0#16 ++ 0#16 ++ 0#8 ++ 0#8 := by decide
  rw [configWord, hmask]
  iterate 5 rw [BitVec.and_append]
  simp

theorem kselWord_reserved (k : KSel) : kselWord k &&& 0xFFFFFFFF000000FC#64 = 0 := by
  have hmask : (0xFFFFFFFF000000FC#64 : Word) =
    BitVec.allOnes 32 ++ 0#16 ++ 0#8 ++ BitVec.allOnes 6 ++ 0#2 := by decide
  rw [kselWord, hmask]
  iterate 4 rw [BitVec.and_append]
  simp

theorem cutoff_reserved (c : BitVec 32) : c.setWidth 64 &&& 0xFFFFFFFF00000000#64 = 0 := by
  have hmask : (0xFFFFFFFF00000000#64 : Word) = BitVec.allOnes 32 ++ 0#32 := by decide
  rw [BitVec.setWidth_eq_append (by decide), BitVec.cast_eq, hmask, BitVec.and_append]
  simp

/-- Settles O13: COMMAND and the reserved offsets by the map, the reserved bits word by word. -/
theorem reservedOffsetsAndBitsReadZero : Obligations.ReservedOffsetsAndBitsReadZero := by
  unfold Obligations.ReservedOffsetsAndBitsReadZero
  intro s
  refine ⟨rfl, fun off h1 h2 => ?_, fun off h => ?_, idWord_reserved s.cfg, configWord_reserved s.cfg,
    statusWord_reserved s, irqEnWord_reserved s, kselWord_reserved s.ksel, cutoff_reserved s.cutoff⟩
  · rw [windowSlot_reserved h1 (.inl h2)]
    rfl
  · rw [windowSlot_reserved (by omega) (.inr h)]
    rfl

/-- ID as a number, field by field (R33). -/
theorem toNat_idWord (cfg : Config) : (idWord cfg).toNat =
    0x424C5253 * 2 ^ 32 + (decide (cfg.leakShift ≠ 0)).toNat * 2 ^ 17 + cfg.freqAware.toNat * 2 ^ 16 + 7 := by
  simp only [idWord, toNat_append_fields, BitVec.toNat_ofBool, BitVec.toNat_ofNat, BitVec.ofNat_eq_ofNat]
  omega

/-- CONFIG as a number, field by field (R34); in a legal configuration every parameter fits its field. -/
theorem toNat_configWord {cfg : Config} (hl : cfg.legal = true) : (configWord cfg).toNat =
    cfg.leakShift * 2 ^ 48 + cfg.headroom * 2 ^ 32 + cfg.maxTaps * 2 ^ 16 + 15 * 2 ^ 8 + 32 := by
  obtain ⟨-, -, -, htaps, hhead, hleak, -⟩ := (configLegal_iff cfg).1 hl
  simp only [configWord, toNat_append_fields, BitVec.toNat_ofNat, BitVec.ofNat_eq_ofNat, ampFrac]
  omega

theorem idWord_freqAware (cfg : Config) : (idWord cfg).getLsbD 16 = cfg.freqAware := by
  rw [idWord, BitVec.getLsbD_append, if_neg (by decide), BitVec.getLsbD_append, if_pos (by decide)]
  simp

theorem idWord_leak (cfg : Config) : (idWord cfg).getLsbD 17 = decide (cfg.leakShift ≠ 0) := by
  rw [idWord, BitVec.getLsbD_append, if_neg (by decide), BitVec.getLsbD_append, if_neg (by decide),
    BitVec.getLsbD_append, if_pos (by decide)]
  simp

/-- Settles O17: the fields of ID and CONFIG, and no write has an effect on them. -/
theorem identificationRegistersHoldTheParameters : Obligations.IdentificationRegistersHoldTheParameters := by
  unfold Obligations.IdentificationRegistersHoldTheParameters
  intro s hl
  obtain ⟨-, -, -, htaps, hhead, hleak, -⟩ := (configLegal_iff s.cfg).1 hl
  have hid := toNat_idWord s.cfg
  have hfreqBit := s.cfg.freqAware.toNat_lt
  have hleakBit := (decide (s.cfg.leakShift ≠ 0)).toNat_lt
  have hconfig := toNat_configWord hl
  refine ⟨⟨idWord s.cfg, rfl, by omega, idWord_freqAware s.cfg, idWord_leak s.cfg, by omega, by omega, fun hf hs => ?_⟩,
    ⟨configWord s.cfg, rfl, by omega⟩, fun v => ⟨rfl, rfl⟩⟩
  simp only [idWord, hf, hs]
  decide

/-! ### The frame of each command -/

section
variable {s t : State}

theorem execSetRates_frame (h : execSetRates s = .next t) : ∃ f sr r k e l,
    t = { s with factor := f, sampleRate := sr, ready := r, ksel := k, err := e, lastErr := l } := by
  rcases execSetRates_cases h with rfl | ⟨-, -, -, -, -, rfl⟩ <;> exact ⟨_, _, _, _, _, _, rfl⟩

theorem execSetCutoff_frame (h : execSetCutoff s = .next t) : ∃ cut k e l,
    t = { s with cutoff := cut, ksel := k, err := e, lastErr := l } := by
  rcases execSetCutoff_cases h with ⟨-, rfl⟩ | ⟨-, -, rfl⟩ | ⟨cut, -, -, rfl⟩ <;> exact ⟨_, _, _, _, rfl⟩

theorem execClocksNeeded_frame (h : execClocksNeeded s = .next t) : ∃ v e l,
    t = { s with result := v, err := e, lastErr := l } := by
  rcases execClocksNeeded_cases h with ⟨c, rfl⟩ | ⟨-, rfl⟩ | ⟨n, -, -, -, -, rfl⟩ <;> exact ⟨_, _, _, rfl⟩

theorem execAddDelta_frame (h : execAddDelta s = .next t) : ∃ a e l,
    t = { s with acc := a, err := e, lastErr := l } := by
  rcases execAddDelta_cases h with ⟨c, rfl⟩ | ⟨n, -, -, rfl⟩ | ⟨n, d, -, -, -, -, -, rfl⟩ <;> exact ⟨_, _, _, rfl⟩

theorem execEndFrame_frame (h : execEndFrame s = .next t) : ∃ n o e l,
    t = { s with avail := n, offset := o, err := e, lastErr := l } := by
  rcases execEndFrame_cases h with ⟨c, rfl⟩ | ⟨-, rfl⟩ | ⟨n, -, -, -, -, rfl⟩ <;> exact ⟨_, _, _, _, rfl⟩

theorem execReadSamples_frame {st : Bool} (h : execReadSamples st s = .next t) : ∃ g m a n v e l,
    t = { s with integrator := g, pcm := m, acc := a, avail := n, result := v, err := e, lastErr := l } := by
  rcases execReadSamples_cases h with ⟨c, rfl⟩ | ⟨n, -, -, rfl⟩ | ⟨n, -, -, -, rfl⟩ <;>
    exact ⟨_, _, _, _, _, _, _, rfl⟩

end

/-- Settles O25: each command by its frame. -/
theorem commandsWriteOnlyTheirFields : Obligations.CommandsWriteOnlyTheirFields := by
  unfold Obligations.CommandsWriteOnlyTheirFields
  intro i s t h
  cases i with
  | setRates =>
    obtain ⟨f, sr, r, k, e, l, rfl⟩ := execSetRates_frame h
    simp
  | setCutoff =>
    obtain ⟨cut, k, e, l, rfl⟩ := execSetCutoff_frame h
    simp
  | clear =>
    obtain rfl := execClear_cases h
    simp
  | clocksNeeded =>
    obtain ⟨v, e, l, rfl⟩ := execClocksNeeded_frame h
    simp
  | addDelta =>
    obtain ⟨a, e, l, rfl⟩ := execAddDelta_frame h
    simp
  | endFrame =>
    obtain ⟨n, o, e, l, rfl⟩ := execEndFrame_frame h
    simp
  | samplesAvail =>
    obtain rfl := execSamplesAvail_cases h
    simp
  | readSamples st =>
    obtain ⟨g, m, a, n, v, e, l, rfl⟩ := execReadSamples_frame h
    simp

/-! ### Who writes FACTOR, SAMPLE_RATE and READY (R40, R44, R50) -/

/-- FACTOR, SAMPLE_RATE and READY are as they were. -/
def KeepsRates (s t : State) : Prop := t.factor = s.factor ∧ t.sampleRate = s.sampleRate ∧ t.ready = s.ready

section
variable {s t : State}

theorem exec_keepsRates {i : Instr} (h : exec i s = .next t) (hi : i ≠ .setRates) : KeepsRates s t := by
  obtain ⟨hframe, -⟩ := commandsWriteOnlyTheirFields i s t h
  by_contra hkeeps
  exact hi (hframe (by unfold KeepsRates at hkeeps; tauto))

theorem execute_rates {v : Word} (h : execute v s = .next t) :
    KeepsRates s t ∨ (decode v = .ok .setRates ∧ execSetRates s = .next t) := by
  rcases execute_cases h with rfl | ⟨i, hd, hx⟩
  · exact .inl ⟨rfl, rfl, rfl⟩
  · by_cases hi : i = .setRates
    · subst hi
      exact .inr ⟨hd, hx⟩
    · exact .inl (exec_keepsRates hx hi)

theorem regWrite_rates {off n : Nat} {v : Word} (h : regWrite off n v s = .next t) :
    KeepsRates s t ∨ (off = 0x038 ∧ n = 8 ∧ decode v = .ok .setRates ∧ execSetRates s = .next t) := by
  rcases regWrite_cases h with ⟨-, rfl⟩ | rfl | rfl | rfl | rfl | rfl | rfl | ⟨hoff, hn, hx⟩
  iterate 7 · exact .inl ⟨rfl, rfl, rfl⟩
  · exact (execute_rates hx).imp_right fun ⟨hd, hr⟩ => ⟨hoff, hn, hd, hr⟩

/-- A step keeps the three registers, or it is a reset, or it runs a SET_RATES the host wrote to COMMAND. -/
theorem step_rates (h : step s = .next t) :
    KeepsRates s t ∨ (∃ rest, s.pending = .reset :: rest ∧ t.ready = false) ∨
    ∃ v rest, s.pending = .regWrite (s.cfg.blrsBase + 0x038) 8 v :: rest ∧ decode v = .ok .setRates ∧
      execSetRates { s with pending := rest } = .next t := by
  obtain ⟨-, ⟨-, rfl⟩ | ⟨a, rest, hp, hx⟩⟩ := step_cases h
  · exact .inl ⟨rfl, rfl, rfl⟩
  rcases perform_cases hx with ⟨r, rfl⟩ | ⟨r, rfl⟩ | rfl | ⟨idx, v, -, rfl⟩ |
    ⟨rfl, rfl⟩ | ⟨addr, n, v, off, rfl, hoff, hw⟩
  iterate 4 · exact .inl ⟨rfl, rfl, rfl⟩
  · exact .inr (.inl ⟨rest, hp, rfl⟩)
  · obtain ⟨rfl, -⟩ := windowOffset_eq_some hoff
    rcases regWrite_rates hw with hkeeps | ⟨rfl, rfl, hd, hr⟩
    · exact .inl hkeeps
    · exact .inr (.inr ⟨v, rest, hp, hd, hr⟩)

theorem execSetRates_ready (h : execSetRates s = .next t) (hr : t ≠ reject .rate s) : t.ready = true := by
  rcases execSetRates_cases h with rfl | ⟨-, -, -, -, -, rfl⟩
  · exact absurd rfl hr
  · rfl

end

/-- Settles O24: READY is one of the three registers step_rates speaks of. -/
theorem readyIsSetBySetRatesAndClearedByReset : Obligations.ReadyIsSetBySetRatesAndClearedByReset := by
  unfold Obligations.ReadyIsSetBySetRatesAndClearedByReset
  refine ⟨fun cfg => rfl, fun s t h => execSetRates_ready h, fun s t h hs ht => ?_, fun s t h hs ht => ?_⟩
  · rcases step_rates h with ⟨-, -, hkeep⟩ | ⟨rest, -, hreset⟩ | ⟨v, rest, hp, hd, -⟩
    · simp [hkeep, hs] at ht
    · simp [hreset] at ht
    · exact ⟨v, rest, hp, hd⟩
  · rcases step_rates h with ⟨-, -, hkeep⟩ | ⟨rest, hp, -⟩ | ⟨v, rest, -, -, hx⟩
    · simp [hkeep, hs] at ht
    · exact ⟨rest, hp⟩
    · by_cases hr : t = reject .rate { s with pending := rest }
      · simp [hr, hs] at ht
      · simp [execSetRates_ready hx hr] at ht

/-- Settles O26: a step that keeps the three registers changes neither FACTOR nor SAMPLE_RATE. -/
theorem onlySetRatesOrResetChangesTheFactor : Obligations.OnlySetRatesOrResetChangesTheFactor := by
  unfold Obligations.OnlySetRatesOrResetChangesTheFactor
  intro s t h hne
  rcases step_rates h with ⟨hf, hsr, -⟩ | ⟨rest, hp, -⟩ | ⟨v, rest, hp, hd, -⟩
  · exact absurd hne (by simp [hf, hsr])
  · exact .inl ⟨rest, hp⟩
  · exact .inr ⟨v, rest, hp, hd⟩

/-! ### The bytes READ_SAMPLES writes (R47, R201) -/

/-- A byte READ_SAMPLES changes belongs to the element of one of its samples, and all of those lie below PCM_LEN. -/
theorem execReadSamples_changed_byte {st : Bool} {s t : State} {a : Nat} (hpcm : Memory.wf s.pcm = true)
    (h : execReadSamples st s = .next t) (hne : Memory.readByte t.pcm a ≠ Memory.readByte s.pcm a) :
    ∃ idx, idx < s.pcmLen.toNat ∧ (a = s.cfg.pcmBase + 2 * idx ∨ a = s.cfg.pcmBase + 2 * idx + 1) := by
  rcases execReadSamples_cases h with ⟨c, rfl⟩ | ⟨n, -, -, rfl⟩ | ⟨n, -, -, hlen, rfl⟩
  · exact absurd rfl hne
  · exact absurd (by rw [setResult_pcm]) hne
  · have hst : 0 < strideOf st := by cases st <;> decide
    have hkept := (readByte_readLoop s s.arg1.toNat hst (readCount s n) 0 hpcm).2 a
    by_contra hno
    refine hne (hkept fun j _ hj => ?_)
    have hj' : j * strideOf st ≤ (readCount s n - 1) * strideOf st := Nat.mul_le_mul_right _ (by omega)
    have hidx : s.arg1.toNat + j * strideOf st < s.pcmLen.toNat := by omega
    exact ⟨fun h0 => hno ⟨_, hidx, .inl h0⟩, fun h1 => hno ⟨_, hidx, .inr h1⟩⟩

/-- Settles O55: by the frame the command is READ_SAMPLES, whose elements lie below PCM_LEN. -/
theorem onlyElementsBelowPcmLenAreWritten : Obligations.OnlyElementsBelowPcmLenAreWritten := by
  unfold Obligations.OnlyElementsBelowPcmLenAreWritten
  intro i s t a hs h hne
  obtain ⟨-, -, -, -, -, -, -, -, hpcm, -⟩ := commandsWriteOnlyTheirFields i s t h
  obtain ⟨st, rfl⟩ := hpcm ⟨a, hne⟩
  exact ⟨⟨st, rfl⟩, execReadSamples_changed_byte hs.pcmCanonical h hne⟩

/-! ### The active kernel and KSEL (R45, R145, R146) -/

/-- `Select` by R145's cases: no supported rate, no cutoff, a listed cutoff, and Dirac for any other cutoff. -/
theorem selectKernel_cases (cfg : Config) (sr : Word) (cut : BitVec 32) :
    (rateIndexOf sr = none ∧ selectKernel cfg sr cut = { source := .dirac none, taps := 1 }) ∨
    ∃ i, rateIndexOf sr = some i ∧
      ((cut = 0 ∧ selectKernel cfg sr cut = { source := .rate i, taps := (KernelBank.kr cfg.bank i).length }) ∨
       (∃ k, cut ≠ 0 ∧ cfg.freqAware = true ∧ KernelBank.kcAt cfg.bank i cut = some k ∧
          selectKernel cfg sr cut = { source := .cutoff i, taps := k.length }) ∨
       (cut ≠ 0 ∧ (cfg.freqAware = false ∨ KernelBank.kcAt cfg.bank i cut = none) ∧
          selectKernel cfg sr cut = { source := .dirac (some i), taps := 1 })) := by
  unfold selectKernel
  split
  · rename_i hr
    exact .inl ⟨hr, rfl⟩
  · rename_i i hr
    refine .inr ⟨i, hr, ?_⟩
    split
    · rename_i hc
      exact .inl ⟨hc, rfl⟩
    · rename_i hc
      split
      · rename_i k hk
        split at hk
        · rename_i hf
          exact .inr (.inl ⟨k, hc, hf, hk, rfl⟩)
        · cases hk
      · rename_i hk
        refine .inr (.inr ⟨hc, ?_, rfl⟩)
        split at hk
        · exact .inr hk
        · rename_i hf
          exact .inl (by simpa using hf)

/-- A selection's TAPS is the tap count of the kernel it makes active. -/
theorem taps_eq_length {s : State} (h : s.ksel = selectKernel s.cfg s.sampleRate s.cutoff) :
    s.ksel.taps = (activeKernel s).length := by
  rcases selectKernel_cases s.cfg s.sampleRate s.cutoff with ⟨-, hk⟩ | ⟨i, -, ⟨-, hk⟩ | ⟨k, -, -, hkc, hk⟩ | ⟨-, -, hk⟩⟩
  · simp [activeKernel, h, hk, diracKernel]
  · simp [activeKernel, h, hk]
  · simp [activeKernel, h, hk, hkc]
  · simp [activeKernel, h, hk, diracKernel]

theorem kcAt_legal {cfg : Config} (hl : cfg.legal = true) {i : RateIdx} {cut : BitVec 32} {k : Kernel}
    (h : KernelBank.kcAt cfg.bank i cut = some k) : Kernel.legal cfg.maxTaps k = true := by
  obtain ⟨-, -, -, -, -, -, hbank⟩ := (configLegal_iff cfg).1 hl
  obtain ⟨e, he, rfl⟩ := Option.map_eq_some_iff.1 h
  exact (kernelBankLegal_kc hbank (List.mem_of_find?_eq_some he)).2

/-- Every selectable kernel fits the bank's largest tap count (R141). -/
theorem selectKernel_taps_le {cfg : Config} (hl : cfg.legal = true) (sr : Word) (cut : BitVec 32) :
    (selectKernel cfg sr cut).taps ≤ cfg.maxTaps := by
  obtain ⟨-, -, htaps, -, -, -, hbank⟩ := (configLegal_iff cfg).1 hl
  have hlen : ∀ {k}, Kernel.legal cfg.maxTaps k = true → k.length ≤ cfg.maxTaps := fun hk =>
    ((kernelLegal_iff _ _).1 hk).2.1
  rcases selectKernel_cases cfg sr cut with ⟨-, hk⟩ | ⟨i, -, ⟨-, hk⟩ | ⟨k, -, -, hkc, hk⟩ | ⟨-, -, hk⟩⟩ <;> rw [hk]
  · exact htaps
  · exact hlen (kernelBankLegal_kr hbank i)
  · exact hlen (kcAt_legal hl hkc)
  · exact htaps

/-- KSEL's RATE_IDX is the index of the rate the selection was made for, 0xFF for none. -/
theorem rateIdxField_selectKernel (cfg : Config) (sr : Word) (cut : BitVec 32) :
    (rateIdxField (selectKernel cfg sr cut).source).toNat = ((rateIndexOf sr).map rateNumber).getD 0xFF := by
  have hnum : ∀ i, (BitVec.ofNat 8 (rateNumber i)).toNat = rateNumber i := fun i => by cases i <;> rfl
  rcases selectKernel_cases cfg sr cut with ⟨hr, hk⟩ | ⟨i, hr, ⟨-, hk⟩ | ⟨k, -, -, -, hk⟩ | ⟨-, -, hk⟩⟩ <;> rw [hk, hr]
  · rfl
  iterate 3 · exact hnum i

/-- KSEL as a number, field by field; the taps of a legal kernel fit their field. -/
theorem toNat_kselWord {k : KSel} (hk : k.taps < 2 ^ 16) : (kselWord k).toNat =
    k.taps * 2 ^ 16 + (rateIdxField k.source).toNat * 2 ^ 8 + (kindField k.source).toNat := by
  simp only [kselWord, toNat_append_fields, BitVec.toNat_ofNat, BitVec.ofNat_eq_ofNat]
  omega

/-- Settles O18: the fields of KSEL are those of the selection, which the invariant ties to the recorded rate. -/
theorem kselReadsTheActiveKernel : Obligations.KselReadsTheActiveKernel := by
  unfold Obligations.KselReadsTheActiveKernel
  intro s h
  obtain ⟨-, -, -, hmax, -⟩ := (configLegal_iff s.cfg).1 h.cfgLegal
  have htaps := selectKernel_taps_le h.cfgLegal s.sampleRate s.cutoff
  have hidx := rateIdxField_selectKernel s.cfg s.sampleRate s.cutoff
  rw [← h.selected] at htaps hidx
  have hidxLt := (rateIdxField s.ksel.source).isLt
  have hkindLt := (kindField s.ksel.source).isLt
  rw [toNat_kselWord (by omega), ← hidx, ← taps_eq_length h.selected]
  refine ⟨?_, by omega, by omega, by omega⟩
  rw [show (s.ksel.taps * 2 ^ 16 + (rateIdxField s.ksel.source).toNat * 2 ^ 8 + (kindField s.ksel.source).toNat) % 4 =
    (kindField s.ksel.source).toNat by omega]
  cases s.ksel.source <;> rfl

end Sys2Proof.Machine
end

section
/-! The statements of 20_memory.md: bytes of a word (O4), no command or step ends a run (O8), accesses that are malformed
(O10) or outside the window (O11), the host's own elements (O20), what READ_SAMPLES writes (O49, O53), and the accesses a
command line assembles to (O57). -/

namespace Sys2Proof.Machine

/-! ### The bytes of a word (R82) -/

theorem wordOfBytes_bytesOfWord (v : Word) : wordOfBytes (bytesOfWord v) = some v := by
  simp only [bytesOfWord, wordOfBytes, Option.some_inj]
  iterate 7 rw [BitVec.extractLsb'_append_extractLsb'_eq_extractLsb' (by rfl)]
  exact BitVec.extractLsb'_eq_self

theorem bytesOfWord_eq_map_range (v : Word) :
    bytesOfWord v = (List.range 8).map fun k => v.extractLsb' (8 * k) 8 := rfl

/-- Settles O4: neighbouring bytes join to the bits they were cut from, and byte k is cut at bit 8k. -/
theorem wordBytesAreLittleEndian : Obligations.WordBytesAreLittleEndian := by
  unfold Obligations.WordBytesAreLittleEndian
  intro v
  refine ⟨wordOfBytes_bytesOfWord v, fun k hk => ?_⟩
  rw [bytesOfWord_eq_map_range, List.getElem?_map, List.getElem?_range hk]
  simp only [Option.map_some, BitVec.extractLsb'_toNat, Nat.shiftRight_eq_div_pow]

/-! ### Samples (R83, R202, R205) -/

theorem sampleOf_eq (w : Word) : sampleOf w = max (-32768) (min 32767 (w.toInt / 2 ^ 15)) := rfl

/-- A sample is held whole by the 16 bits of its element (R83). -/
theorem toInt_ofInt_sampleOf (w : Word) : (BitVec.ofInt 16 (sampleOf w)).toInt = sampleOf w := by
  obtain ⟨hmin, hmax⟩ := clamp16_bounds (asr w.toInt ampFrac)
  exact BitVec.toInt_ofInt_eq_self (by decide) hmin (Int.lt_of_le_of_lt hmax (by decide))

/-- Settles O53: the clamp's bounds 32767 and -32768 are those of the integrator shifted right by 15. -/
theorem samplesAreClampedNotWrapped : Obligations.SamplesAreClampedNotWrapped := by
  unfold Obligations.SamplesAreClampedNotWrapped
  intro w
  refine ⟨toInt_ofInt_sampleOf w, ?_⟩
  rw [sampleOf_eq]
  refine ⟨fun h => ?_, fun h => ?_, fun hlow hhigh => ?_⟩ <;> omega

/-! ### READ_SAMPLES completes (R200, R202) -/

theorem strideOf_pos (stereo : Bool) : 0 < strideOf stereo := by cases stereo <;> decide

/-- Settles O49: the state READ_SAMPLES completes in, and the bytes its sample loop leaves. -/
theorem readSamplesWritesTheIntegratedSamples : Obligations.ReadSamplesWritesTheIntegratedSamples := by
  unfold Obligations.ReadSamplesWritesTheIntegratedSamples
  intro st s hinv h32 c stride hc hlen
  obtain ⟨written, kept⟩ := readByte_readLoop s s.arg1.toNat (strideOf_pos st) c 0 hinv.pcmCanonical
  refine ⟨_, execReadSamples_of_inRange h32 (Nat.ne_of_gt hc) hlen, rfl, fun k hk => ?_, fun a ha => ?_⟩
  · exact written k (Nat.zero_le k) (by omega)
  · exact kept a fun j _ hj => ha j (by omega)

/-! ### No command and no access ends a run (R88, R224, R227) -/

/-- A command answers one next state for every array, so for the array of its own state. -/
theorem exec_answers_next (i : Instr) (s : State) : ∃ t, exec i s = .next t := by
  obtain ⟨t, writes, h⟩ := exec_answersUnread i s
  exact ⟨_, h s.pcm⟩

theorem execute_answers_next (v : Word) (s : State) : ∃ t, execute v s = .next t := by
  unfold execute
  split
  · exact exec_answers_next _ s
  · exact ⟨_, rfl⟩

theorem writeSlot_answers_next (w : WindowSlot) (v : Word) (s : State) : ∃ t, writeSlot w v s = .next t := by
  cases w
  case command => exact execute_answers_next v s
  all_goals exact ⟨_, rfl⟩

theorem regWrite_answers_next (off n : Nat) (v : Word) (s : State) : ∃ t, regWrite off n v s = .next t := by
  unfold regWrite
  split
  · exact writeSlot_answers_next _ v s
  · exact ⟨_, rfl⟩

theorem perform_answers_next (a : HostAccess) (s : State) : ∃ t, perform a s = .next t := by
  cases a with
  | regRead addr n =>
    dsimp only [perform]
    cases windowOffset s.cfg addr <;> exact ⟨_, rfl⟩
  | regWrite addr n v =>
    dsimp only [perform]
    cases windowOffset s.cfg addr with
    | none => exact ⟨_, rfl⟩
    | some off => exact regWrite_answers_next off n v s
  | pcmLoad idx => exact ⟨_, rfl⟩
  | pcmStore idx v => exact ⟨_, rfl⟩
  | reset => exact ⟨_, rfl⟩

theorem step_of_no_pending {s : State} (hl : s.cfg.legal = true) (hp : s.pending = []) : step s = .next s := by
  simp only [step, performNext, hl, hp, if_true]

theorem step_answers_next {s : State} (hl : s.cfg.legal = true) : ∃ t, step s = .next t := by
  cases hp : s.pending with
  | nil => exact ⟨s, step_of_no_pending hl hp⟩
  | cons a rest =>
    rw [step_of_pending hl hp]
    exact perform_answers_next a _

/-- Settles O8: command by command, and access by access. -/
theorem noCommandEndsTheRun : Obligations.NoCommandEndsTheRun := by
  unfold Obligations.NoCommandEndsTheRun
  exact ⟨exec_answers_next, fun _ hl => step_answers_next hl⟩

/-! ### Accesses the block does not serve (R84) -/

theorem accessOk_eq_false {off n : Nat} (h : n ≠ 8 ∨ off % 8 ≠ 0) : accessOk off n = false :=
  decide_eq_false (by omega)

/-- BUS is ERR bit 5 (R220, R224). -/
theorem raiseErr_bus (err : BitVec 7) : raiseErr .bus err = err ||| 0x20#7 := rfl

theorem windowOffset_outside {cfg : Config} {addr : Nat} (h : addr < cfg.blrsBase ∨ cfg.blrsBase + 2 ^ 24 ≤ addr) :
    windowOffset cfg addr = none :=
  if_neg (by simp only [windowBytes]; omega)

/-- Settles O10: the access fails the check of its size and alignment, and BUS is recorded. -/
theorem malformedAccessesRecordBus : Obligations.MalformedAccessesRecordBus := by
  unfold Obligations.MalformedAccessesRecordBus
  intro s off n v rest hl hoff hbad
  refine ⟨fun hp => ?_, fun hp => ?_⟩
  · simp only [step_of_pending hl hp, perform, windowOffset_base_add _ hoff, regWrite, accessOk_eq_false hbad]
    rfl
  · simp only [step_of_pending hl hp, perform, windowOffset_base_add _ hoff, regRead, accessOk_eq_false hbad]
    rfl

/-- Settles O11: the address has no offset in the window. -/
theorem accessesOutsideTheWindowDoNotReachTheBlock : Obligations.AccessesOutsideTheWindowDoNotReachTheBlock := by
  unfold Obligations.AccessesOutsideTheWindowDoNotReachTheBlock
  intro s addr n v rest hl hout
  refine ⟨fun hp => ?_, fun hp => ?_⟩ <;> simp only [step_of_pending hl hp, perform, windowOffset_outside hout]

/-! ### The host's own elements (R81, R82, R89) -/

/-- An element reads as it was written, its two bytes joined again. -/
theorem pcmElement_pcmWrite (cfg : Config) {m : Memory} (idx : Nat) (v : BitVec 16) (hm : Memory.wf m = true) :
    pcmElement cfg (pcmWrite cfg m idx v) idx = v := by
  have hlow : hostByte (pcmWrite cfg m idx v) (pcmAddress cfg idx) = v.extractLsb' 0 8 := by
    simp [hostByte, readByte_pcmWrite _ _ _ _ hm]
  have hhigh : hostByte (pcmWrite cfg m idx v) (pcmAddress cfg idx + 1) = v.extractLsb' 8 8 := by
    simp [hostByte, readByte_pcmWrite _ _ _ _ hm]
  rw [pcmElement, hlow, hhigh, BitVec.extractLsb'_append_extractLsb'_eq_extractLsb' (by rfl)]
  exact BitVec.extractLsb'_eq_self

section
variable (s : State) (hl : s.cfg.legal = true) (idx : Word) (p : List HostAccess)
include hl

theorem step_pcmStore (v : BitVec 16) : step { s with pending := .pcmStore idx v :: p } =
    .next { s with pending := p, pcm := pcmWrite s.cfg s.pcm idx.toNat v } :=
  step_of_pending (s := { s with pending := .pcmStore idx v :: p }) hl rfl

theorem step_pcmLoad : step { s with pending := .pcmLoad idx :: p } =
    .next { s with pending := p, response := .sample (pcmElement s.cfg s.pcm idx.toNat) } :=
  step_of_pending (s := { s with pending := .pcmLoad idx :: p }) hl rfl

end

/-- Settles O20: the store writes the element's two bytes, and the load joins them. -/
theorem hostLoadReturnsTheStoredElement : Obligations.HostLoadReturnsTheStoredElement := by
  unfold Obligations.HostLoadReturnsTheStoredElement
  intro s idx v rest hl hm
  have hload := step_pcmLoad { s with pcm := pcmWrite s.cfg s.pcm idx.toNat v } hl idx rest
  rw [pcmElement_pcmWrite _ _ _ hm] at hload
  refine ⟨_, core_run_two (step_pcmStore s hl idx _ v) hload, rfl, fun a hlow hhigh => ?_⟩
  rw [readByte_pcmWrite _ _ _ _ hm, if_neg hhigh, if_neg hlow]

/-! ### The accesses of a command line (R88, R114, R119) -/

/-- The decoder reads a command from the word the encoder writes (R110 to R112). -/
theorem decode_encode (i : Instr) : decode (encode i) = .ok i := by
  cases i with
  | readSamples stereo => cases stereo <;> rfl
  | _ => rfl

theorem core_run_succ {s t : State} (n : Nat) (h : step s = .next t) : core.run (n + 1) s = core.run n t := by
  have h' : core.step s = .next t := h
  simp only [Host.Core.run, h']

theorem core_run_one {s : State} (hl : s.cfg.legal = true) : core.run 1 s = step s := by
  obtain ⟨t, h⟩ := step_answers_next hl
  exact (core_run_succ 0 h).trans h.symm

section
variable (s : State) (hl : s.cfg.legal = true)
include hl

theorem step_writeArg0 (v : Word) (p : List HostAccess) :
    step { s with pending := writeAccess s.cfg 0x020 v :: p } = .next { s with arg0 := v, pending := p } :=
  step_regWrite (s := { s with pending := writeAccess s.cfg 0x020 v :: p }) hl (by decide) (by decide) rfl

theorem step_writeArg1 (v : Word) (p : List HostAccess) :
    step { s with pending := writeAccess s.cfg 0x028 v :: p } = .next { s with arg1 := v, pending := p } :=
  step_regWrite (s := { s with pending := writeAccess s.cfg 0x028 v :: p }) hl (by decide) (by decide) rfl

/-- The COMMAND write of a line issues its command with ARG0 and ARG1 as they stand. -/
theorem run_commandAccess (i : Instr) (rest : List HostAccess) :
    core.run 1 { s with pending := commandAccess s.cfg i :: rest } =
      issue { instr := i, arg0 := s.arg0, arg1 := s.arg1 } { s with pending := rest } :=
  (core_run_one (s := { s with pending := commandAccess s.cfg i :: rest }) hl).trans
    (stepRunsTheWrittenCommand { s with pending := commandAccess s.cfg i :: rest } _ i rest hl rfl (decode_encode i))

/-- A line that writes ARG0 issues its command with that operand. -/
theorem run_arg0_commandAccess (i : Instr) (a0 : Word) (rest : List HostAccess) :
    core.run 2 { s with pending := writeAccess s.cfg 0x020 a0 :: commandAccess s.cfg i :: rest } =
      issue { instr := i, arg0 := a0, arg1 := s.arg1 } { s with pending := rest } :=
  (core_run_succ 1 (step_writeArg0 s hl a0 _)).trans (run_commandAccess { s with arg0 := a0 } hl i rest)

/-- A line that writes both operands issues its command with them. -/
theorem run_args_commandAccess (i : Instr) (a0 a1 : Word) (rest : List HostAccess) :
    core.run 3 { s with
        pending := writeAccess s.cfg 0x020 a0 :: writeAccess s.cfg 0x028 a1 :: commandAccess s.cfg i :: rest } =
      issue { instr := i, arg0 := a0, arg1 := a1 } { s with pending := rest } :=
  (core_run_succ 2 (step_writeArg0 s hl a0 _)).trans <|
    (core_run_succ 1 (step_writeArg1 { s with arg0 := a0 } hl a1 _)).trans <|
      run_commandAccess { s with arg0 := a0, arg1 := a1 } hl i rest

end

/-- Settles O57: a command line writes both operands, ARG0 or neither, and then COMMAND. -/
theorem assembledLineRunsItsCommand : Obligations.AssembledLineRunsItsCommand := by
  unfold Obligations.AssembledLineRunsItsCommand
  intro s line c rest hl hc
  cases line <;> cases hc
  case setRates cr sr => exact run_args_commandAccess s hl .setRates cr sr rest
  case setCutoff cut => exact run_arg0_commandAccess s hl .setCutoff (cut.setWidth 64) rest
  case clear => exact run_commandAccess s hl .clear rest
  case clocksNeeded n => exact run_arg0_commandAccess s hl .clocksNeeded (n.setWidth 64) rest
  case addDelta t d => exact run_args_commandAccess s hl .addDelta (t.setWidth 64) (d.signExtend 64) rest
  case endFrame t => exact run_arg0_commandAccess s hl .endFrame (t.setWidth 64) rest
  case samplesAvail => exact run_commandAccess s hl .samplesAvail rest
  case readSamples st n base =>
    exact run_args_commandAccess s hl (.readSamples st) (n.setWidth 64) base rest

end Sys2Proof.Machine
end

section
/-! The statements of 30_encoding.md: the table's words (O1), decoding against encoding (O2), illegal words (O3), operands
out of range (O29), and SET_CUTOFF (O35). -/

namespace Sys2Proof.Machine

/-! ### The fields of a command word (R110) -/

theorem toNat_opcField (v : Word) : (opcField v).toNat = v.toNat % 256 := by
  rw [opcField, BitVec.extractLsb'_toNat, Nat.shiftRight_zero]

theorem reservedField_eq_zero_iff (v : Word) : reservedField v = 0 ↔ v.toNat < 512 := by
  rw [← BitVec.toNat_inj, reservedField, BitVec.extractLsb'_toNat, Nat.shiftRight_eq_div_pow]
  have := v.isLt
  simp only [BitVec.ofNat_eq_ofNat, BitVec.toNat_ofNat]
  omega

/-- Where no reserved bit is set, S is the top bit of the nine that are left. -/
theorem stereoField_iff {v : Word} (h : v.toNat < 512) : stereoField v = true ↔ 256 ≤ v.toNat := by
  rw [stereoField, BitVec.getLsbD, Nat.testBit_eq_decide_div_mod_eq, decide_eq_true_iff]
  omega

/-- A word by its three fields, laid out as the encoder lays them out. -/
theorem word_eq_commandFields (v : Word) : v = reservedField v ++ BitVec.ofBool (stereoField v) ++ opcField v := by
  have hbit : BitVec.ofBool (stereoField v) = v.extractLsb' 8 1 := by
    rw [← BitVec.toNat_inj, BitVec.toNat_ofBool, BitVec.extractLsb'_toNat, Nat.shiftRight_eq_div_pow]
    exact Nat.toNat_testBit v.toNat 8
  rw [hbit, reservedField, opcField, BitVec.extractLsb'_append_extractLsb'_eq_extractLsb' (by rfl),
    BitVec.extractLsb'_append_extractLsb'_eq_extractLsb' (by rfl), BitVec.extractLsb'_eq_self]

/-! ### The opcode table (R111) -/

/-- An operation code is the one of the command it names, and only code 8 carries S into the command. -/
theorem operationOf_eq_some {opc : BitVec 8} {st : Bool} {i : Instr} (h : operationOf opc st = some i) :
    opc = i.opcode ∧ i.stereo = (decide (opc = 0x08) && st) := by
  unfold operationOf at h
  split at h <;> cases h
  all_goals
    rename_i hopc
    obtain ⟨-, rfl⟩ := BitVec.toNat_eq_nat.1 hopc
    exact ⟨rfl, rfl⟩

theorem exists_operationOf {opc : BitVec 8} (st : Bool) (h1 : 1 ≤ opc.toNat) (h8 : opc.toNat ≤ 8) :
    ∃ i, operationOf opc st = some i := by
  unfold operationOf
  interval_cases opc.toNat <;> exact ⟨_, rfl⟩

/-! ### The decoder (R112) -/

/-- The decoder answers a command exactly when the word passes R112's three checks. -/
theorem decode_eq_ok_iff_checks {v : Word} {i : Instr} : decode v = .ok i ↔
    reservedField v = 0 ∧ operationOf (opcField v) (stereoField v) = some i ∧
      (stereoField v = true → opcField v = 0x08) := by
  unfold decode
  split
  case isTrue hres => exact ⟨nofun, fun h => absurd h.1 hres⟩
  case isFalse hres =>
    split
    case h_1 hop => simp [hop]
    case h_2 j hop =>
      rw [hop, and_iff_right (not_not.1 hres)]
      split
      case isTrue hstray => exact ⟨nofun, fun h => absurd (h.2 hstray.1) hstray.2⟩
      case isFalse hok =>
        have hS : stereoField v = true → opcField v = 0x08 := fun hst => not_not.1 fun hne => hok ⟨hst, hne⟩
        rw [and_iff_left hS, Except.ok.injEq, Option.some_inj]

/-- The fields of a word that decodes are the fields of its command. -/
theorem eq_encode_of_decode {v : Word} {i : Instr} (h : decode v = .ok i) : v = encode i := by
  obtain ⟨hres, hop, hstray⟩ := decode_eq_ok_iff_checks.1 h
  obtain ⟨hopc, hstereo⟩ := operationOf_eq_some hop
  have hst : i.stereo = stereoField v := by
    rw [hstereo]
    by_cases hS : stereoField v = true
    · rw [hS, hstray hS]
      rfl
    · simp [hS]
  rw [encode, hst, ← hopc, ← hres]
  exact word_eq_commandFields v

theorem decode_eq_ok_iff {v : Word} {i : Instr} : decode v = .ok i ↔ v = encode i :=
  ⟨eq_encode_of_decode, fun h => h ▸ decode_encode i⟩

/-- Settles O2: the checks of the decoder leave the encoder's fields, and an encoding passes them. -/
theorem decodingIsTheInverseOfEncoding : Obligations.DecodingIsTheInverseOfEncoding := by
  unfold Obligations.DecodingIsTheInverseOfEncoding
  intro v i
  exact decode_eq_ok_iff

/-- Settles O1: each word of the table is the encoding of its command. -/
theorem tableWordsDecodeToTheirCommands : Obligations.TableWordsDecodeToTheirCommands := by
  unfold Obligations.TableWordsDecodeToTheirCommands
  simp only [decode_eq_ok_iff]
  decide

/-- The words that decode, in arithmetic on the word (R113). -/
theorem exists_decode_iff (v : Word) : (∃ i, decode v = .ok i) ↔
    v.toNat < 512 ∧ 1 ≤ v.toNat % 256 ∧ v.toNat % 256 ≤ 8 ∧ (256 ≤ v.toNat → v.toNat % 256 = 8) := by
  constructor
  · rintro ⟨i, h⟩
    rw [eq_encode_of_decode h]
    cases i with
    | readSamples st => cases st <;> decide
    | _ => decide
  · rintro ⟨hlt, h1, h8, hS⟩
    rw [← toNat_opcField] at h1 h8 hS
    obtain ⟨i, hi⟩ := exists_operationOf (stereoField v) h1 h8
    exact ⟨i, decode_eq_ok_iff_checks.2 ⟨(reservedField_eq_zero_iff v).2 hlt, hi, fun hst =>
      BitVec.eq_of_toNat_eq (hS ((stereoField_iff hlt).1 hst))⟩⟩

/-- SET_CUTOFF is the one command with operation code 2. -/
theorem decode_setCutoff_iff {v : Word} {i : Instr} (h : decode v = .ok i) : i = .setCutoff ↔ v.toNat % 256 = 2 := by
  rw [eq_encode_of_decode h]
  cases i with
  | readSamples st => cases st <;> decide
  | _ => decide

theorem wellFormed_iff (cfg : Config) (i : Instr) :
    i.wellFormed cfg = true ↔ (i = .setCutoff → cfg.freqAware = true) := by
  cases i <;> simp [Instr.wellFormed]

/-! ### Executing a word (R112, R113) -/

theorem execute_of_decode {v : Word} {i : Instr} (h : decode v = .ok i) (s : State) : execute v s = exec i s := by
  simp only [execute, h]

theorem execute_of_not_decode {v : Word} (h : ¬∃ i, decode v = .ok i) (s : State) :
    execute v s = .next (reject .illegal s) := by
  unfold execute
  split
  case h_1 i hi => exact absurd ⟨i, hi⟩ h
  case h_2 => rfl

theorem exec_setCutoff_of_not_freqAware {s : State} (hf : s.cfg.freqAware = false) :
    exec .setCutoff s = .next (reject .illegal s) := by
  simp [exec, execSetCutoff, hf]

/-- Settles O3: an illegal word does not decode, or decodes to a SET_CUTOFF that the configuration does not have. -/
theorem illegalWordsAreRejected : Obligations.IllegalWordsAreRejected := by
  unfold Obligations.IllegalWordsAreRejected
  intro v s opc illegal
  refine ⟨fun hill => ?_, fun hleg => ?_⟩
  · by_cases hdec : ∃ i, decode v = .ok i
    · obtain ⟨hlt, h1, h8, hS⟩ := (exists_decode_iff v).1 hdec
      obtain ⟨i, hi⟩ := hdec
      obtain ⟨h2, hf⟩ : opc = 2 ∧ s.cfg.freqAware = false := by
        rcases hill with h | h | h | ⟨h, hne⟩ | h
        · omega
        · omega
        · omega
        · exact absurd (hS h) hne
        · exact h
      rw [execute_of_decode hi, (decode_setCutoff_iff hi).2 h2, exec_setCutoff_of_not_freqAware hf]
    · exact execute_of_not_decode hdec s
  · simp only [illegal, not_or, not_and] at hleg
    obtain ⟨h0, h9, h512, hS, hcut⟩ := hleg
    obtain ⟨i, hi⟩ := (exists_decode_iff v).2 ⟨by omega, by omega, by omega, fun h => not_not.1 (hS h)⟩
    refine ⟨i, hi, (wellFormed_iff s.cfg i).2 fun h => ?_, execute_of_decode hi s⟩
    simpa using hcut ((decode_setCutoff_iff hi).1 h)

/-! ### Operands (R115, R116, R147) -/

/-- Settles O29: each command looks at its operand form first, and ADD_DELTA at both of its own. -/
theorem operandsOutOfRangeAreRejected : Obligations.OperandsOutOfRangeAreRejected := by
  unfold Obligations.OperandsOutOfRangeAreRejected
  intro s
  refine ⟨fun h i hi => ?_, fun h => ?_⟩
  · have hnone := operandU32_eq_none h
    rcases hi with ⟨rfl, hf⟩ | rfl | rfl | rfl | ⟨st, rfl⟩
    · simp [exec, execSetCutoff, hf, hnone]
    · simp [exec, execClocksNeeded, hnone]
    · simp [exec, execAddDelta, hnone]
    · simp [exec, execEndFrame, hnone]
    · simp [exec, execReadSamples, hnone]
  · have hnone := operandS32_eq_none h
    cases ht : operandU32 s.arg0 <;> simp [exec, execAddDelta, ht, hnone]

theorem exec_setCutoff_of_operand {s : State} {cut : BitVec 32} (hf : s.cfg.freqAware = true)
    (hcut : operandU32 s.arg0 = some cut) :
    exec .setCutoff s = .next { s with cutoff := cut, ksel := selectKernel s.cfg s.sampleRate cut } := by
  simp [exec, execSetCutoff, hf, hcut]

/-- Settles O35: SET_CUTOFF keeps its operand, the rate and the configuration, so it selects the same kernel again. -/
theorem setCutoffReselectsTheKernel : Obligations.SetCutoffReselectsTheKernel := by
  unfold Obligations.SetCutoffReselectsTheKernel
  intro s
  refine ⟨fun hf h32 => ?_, exec_setCutoff_of_not_freqAware⟩
  have hcut := operandU32_of_lt h32
  refine ⟨_, exec_setCutoff_of_operand hf hcut, toNat_of_operandU32 hcut, rfl, ?_⟩
  exact exec_setCutoff_of_operand (s := { s with cutoff := _, ksel := _ }) hf hcut

end Sys2Proof.Machine
end

section
/-! The statements of 40_kernel_bank.md: which words have a rate index (O33), kernel selection (O34), and what one delta
adds to the slot sums (O42, O43). -/

namespace Sys2Proof.Machine

/-! ### Binary64 values (R161) -/

/-- A word by its sign, scale and significand: the significand's leading 1 stands for one step of the exponent field. -/
theorem toNat_eq_sign_scale_significand (x : Word) :
    x.toNat = (signBit x).toNat * 2 ^ 63 + (scaleOf x - 1) * 2 ^ 52 + significand x := by
  have hx := x.isLt
  have hsign : (signBit x).toNat = x.toNat / 2 ^ 63 % 2 := Nat.toNat_testBit _ _
  have hexp : exponentField x = x.toNat / 2 ^ 52 % 2 ^ 11 := by
    simp [exponentField, BitVec.extractLsb'_toNat, Nat.shiftRight_eq_div_pow]
  have hfrac : fractionField x = x.toNat % 2 ^ 52 := by simp [fractionField, BitVec.extractLsb'_toNat]
  unfold scaleOf significand
  split <;> omega

theorem one_le_scaleOf (x : Word) : 1 ≤ scaleOf x := by
  unfold scaleOf
  split <;> omega

theorem significand_lt (x : Word) : significand x < 2 ^ 53 := by
  have : fractionField x < 2 ^ 52 := (x.extractLsb' 0 52).isLt
  unfold significand
  split <;> omega

/-- Above the least scale the significand has its leading 1. -/
theorem le_significand {x : Word} (h : 1 < scaleOf x) : 2 ^ 52 ≤ significand x := by
  unfold scaleOf at h
  unfold significand
  split at h
  · omega
  · rw [if_neg ‹_›]
    omega

/-- R161's rational by the integers the machine computes with. -/
theorem binary64Rat_eq (x : Word) : binary64Rat x =
    (if signBit x then -1 else 1) * ((significand x : ℚ) * 2 ^ ((scaleOf x : ℤ) - 1075)) := by
  unfold binary64Rat significand scaleOf
  by_cases he : exponentField x = 0
  · simp only [if_pos he, Nat.cast_one]
  · simp only [if_neg he]

theorem abs_binary64Rat (x : Word) :
    |binary64Rat x| = (significand x * 2 ^ scaleOf x : ℕ) / (2 : ℚ) ^ (1075 : ℤ) := by
  have hsign : |(if signBit x then -1 else 1 : ℚ)| = 1 := by split <;> simp
  rw [binary64Rat_eq, abs_mul, hsign, one_mul, abs_of_nonneg (by positivity), zpow_sub₀ two_ne_zero, zpow_natCast,
    Nat.cast_mul, Nat.cast_pow, Nat.cast_ofNat, mul_div_assoc]

theorem signBit_iff {x : Word} (h : binary64Rat x ≠ 0) : signBit x = true ↔ binary64Rat x < 0 := by
  have hmag : 0 ≤ (significand x : ℚ) * 2 ^ ((scaleOf x : ℤ) - 1075) := by positivity
  rw [binary64Rat_eq] at h ⊢
  cases hs : signBit x
  · simpa using hmag
  · simpa using lt_of_le_of_ne hmag (right_ne_zero_of_mul h).symm

/-- Magnitudes are normalised: of two equal ones, neither has the smaller scale. -/
theorem scaleOf_le_of_magnitude_eq {x y : Word} (h : significand x * 2 ^ scaleOf x = significand y * 2 ^ scaleOf y) :
    scaleOf y ≤ scaleOf x := by
  by_contra! hlt
  have hx := significand_lt x
  have hy := le_significand (x := y) (by have := one_le_scaleOf x; omega)
  obtain ⟨n, hn⟩ := Nat.exists_eq_add_of_lt hlt
  have hquot : significand x = significand y * 2 ^ n * 2 := by
    refine Nat.eq_of_mul_eq_mul_right (Nat.two_pow_pos (scaleOf x)) ?_
    rw [h, hn]
    ring
  have := Nat.le_mul_of_pos_right (significand y) (Nat.two_pow_pos n)
  omega

/-- A nonzero binary64 value has one bit pattern (R144). -/
theorem binary64Rat_injective_of_ne_zero {x y : Word} (h : binary64Rat x = binary64Rat y) (h0 : binary64Rat y ≠ 0) :
    x = y := by
  have hmag : significand x * 2 ^ scaleOf x = significand y * 2 ^ scaleOf y := by
    have hq := abs_binary64Rat x
    rw [h, abs_binary64Rat y, div_left_inj' (zpow_ne_zero _ two_ne_zero), Nat.cast_inj] at hq
    exact hq.symm
  have hscale : scaleOf x = scaleOf y :=
    Nat.le_antisymm (scaleOf_le_of_magnitude_eq hmag.symm) (scaleOf_le_of_magnitude_eq hmag)
  have hsig : significand x = significand y :=
    Nat.eq_of_mul_eq_mul_right (Nat.two_pow_pos (scaleOf y)) (hscale ▸ hmag)
  have hsign : signBit x = signBit y := by
    rw [Bool.eq_iff_iff, signBit_iff (h ▸ h0), signBit_iff h0, h]
  refine BitVec.eq_of_toNat_eq ?_
  rw [toNat_eq_sign_scale_significand x, toNat_eq_sign_scale_significand y, hsign, hscale, hsig]

/-! ### The rate index (R143, R144) -/

theorem rateIndexOf_eq_some_iff (sr : Word) (i : RateIdx) : rateIndexOf sr = some i ↔ sr = ratePattern i := by
  refine ⟨fun h => by simpa using List.find?_some h, ?_⟩
  rintro rfl
  cases i <;> decide

/-- The five patterns are those of 48000 at five successive scales. -/
theorem binary64Rat_ratePattern (i : RateIdx) : binary64Rat (ratePattern i) = rateHz i := by
  have hsign : signBit (ratePattern i) = false := by cases i <;> decide
  have hsig : significand (ratePattern i) = 48000 * 2 ^ 37 := by cases i <;> decide
  have hscale : scaleOf (ratePattern i) = 1038 + rateNumber i := by cases i <;> decide
  have hHz : rateHz i = 48000 * 2 ^ rateNumber i := by cases i <;> decide
  have hexp : ((1038 + rateNumber i : ℕ) : ℤ) - 1075 = rateNumber i - (37 : ℕ) := by omega
  rw [binary64Rat_eq, hsign, hsig, hscale, hHz, hexp, zpow_sub₀ two_ne_zero, zpow_natCast, zpow_natCast]
  push_cast
  ring

/-- Equality with a rate as a real number is equality with its pattern. -/
theorem eq_ratePattern_iff (sr : Word) (i : RateIdx) :
    sr = ratePattern i ↔ isFinite64 sr = true ∧ binary64Rat sr = rateHz i := by
  constructor
  · rintro rfl
    exact ⟨by cases i <;> decide, binary64Rat_ratePattern i⟩
  · rintro ⟨-, h⟩
    rw [← binary64Rat_ratePattern] at h
    refine binary64Rat_injective_of_ne_zero h ?_
    rw [binary64Rat_ratePattern]
    cases i <;> simp [rateHz]

/-- Settles O33: the table's patterns have the rates as their values, and a nonzero value has one pattern. -/
theorem rateIndexIsExactEquality : Obligations.RateIndexIsExactEquality := by
  unfold Obligations.RateIndexIsExactEquality
  intro sr i
  refine ⟨(rateIndexOf_eq_some_iff sr i).trans (eq_ratePattern_iff sr i), (rateIndexOf_eq_some_iff sr i).trans ?_⟩
  cases i <;> rfl

/-! ### Kernel selection (R145, R146) -/

/-- Settles O34, by R145's cases. -/
theorem selectionFollowsRateAndCutoff : Obligations.SelectionFollowsRateAndCutoff := by
  unfold Obligations.SelectionFollowsRateAndCutoff
  intro s h
  rw [← and_assoc]
  refine ⟨?_, taps_eq_length h⟩
  rcases selectKernel_cases s.cfg s.sampleRate s.cutoff with
    ⟨hr, hk⟩ | ⟨i, hr, ⟨hc, hk⟩ | ⟨k, hc, hf, hkc, hk⟩ | ⟨hc, hno, hk⟩⟩ <;> rw [← h] at hk
  · simp [hr, hk, activeKernel, diracKernel]
  · simp [hr, hc, hk, activeKernel]
  · simpa [hr, hf, hkc, hk, activeKernel] using hc
  · rcases hno with hno | hno <;> simpa [hr, hno, hk, activeKernel, diracKernel] using hc

/-- The active kernel has unity gain, the Dirac kernel too (R141 item 3, R142). -/
theorem activeKernel_sum {s : State} (hl : s.cfg.legal = true) : (activeKernel s).sum = 32768 := by
  obtain ⟨-, -, -, -, -, -, hbank⟩ := (configLegal_iff s.cfg).1 hl
  have hsum : ∀ {k}, Kernel.legal s.cfg.maxTaps k = true → k.sum = 32768 := fun {k} hk => by
    obtain ⟨-, -, -, hk, -⟩ := (kernelLegal_iff _ k).1 hk
    exact hk
  unfold activeKernel
  cases s.ksel.source with
  | dirac => rfl
  | rate i => exact hsum (kernelBankLegal_kr hbank i)
  | cutoff i =>
    cases hkc : KernelBank.kcAt s.cfg.bank i s.cutoff with
    | none => simp [hkc, diracKernel]
    | some k => simpa [hkc] using hsum (kcAt_legal hl hkc)

/-! ### The sums of the slots (R148, R149) -/

theorem slotSum_succ (acc : AccFile) (n : Nat) : slotSum acc (n + 1) = slotSum acc n + accRead acc n := by
  simp [slotSum, List.range_succ]

theorem slotSum_of_silent {acc : AccFile} (h : ∀ j, accRead acc j = 0) (n : Nat) : slotSum acc n = 0 := by
  induction n with
  | zero => rfl
  | succ n ih => rw [slotSum_succ, ih, h, add_zero]

theorem slotSum_accAdd {acc : AccFile} (j : Nat) (x : Int) (hs : cellsSorted acc = true) (n : Nat) :
    slotSum (accAdd acc j x) n = slotSum acc n + BitVec.ofInt 64 (if j < n then x else 0) := by
  induction n with
  | zero => rfl
  | succ n ih =>
    rw [slotSum_succ, slotSum_succ, ih, accRead_accAdd j x n hs]
    rcases Nat.lt_trichotomy n j with h | rfl | h
    · simp [show ¬ j < n by omega, show ¬ j < n + 1 by omega, h.ne]
    · simp [BitVec.add_assoc]
    · simp only [h, show j < n + 1 by omega, h.ne', if_true, if_false]
      exact add_right_comm _ _ _

/-- The tap loop adds to the sum of the first n slots `d` times the taps that fall on them. -/
theorem slotSum_accAddTaps (d : Int) (taps : Kernel) {depth : Nat} {acc : AccFile} {base : Nat}
    (h : accWf depth acc = true) (hb : base + taps.length ≤ depth) (n : Nat) :
    slotSum (accAddTaps acc base d taps) n = slotSum acc n + BitVec.ofInt 64 (d * (taps.take (n - base)).sum) := by
  induction taps generalizing acc base with
  | nil => simp [accAddTaps]
  | cons c rest ih =>
    rw [List.length_cons] at hb
    rw [accAddTaps, ih (accWf_accAdd _ h (by omega)) (by omega), slotSum_accAdd _ _ ((accWf_iff _ _).1 h).1,
      BitVec.add_assoc, ← BitVec.ofInt_add]
    by_cases hn : base < n
    · rw [if_pos hn, show n - base = n - (base + 1) + 1 by omega, List.take_succ_cons, List.sum_cons, mul_add]
    · simp [hn, show n - base = 0 by omega, show n - (base + 1) = 0 by omega]

/-! ### An accepted delta (R170) -/

theorem accAddTaps_zero {depth : Nat} {acc : AccFile} {base : Nat} (taps : Kernel) (h : accWf depth acc = true)
    (hb : base + taps.length ≤ depth) : accAddTaps acc base 0 taps = acc :=
  acc_ext (accWf_accAddTaps 0 taps h hb) h fun j => by simp [accRead_accAddTaps 0 taps j h hb]

/-- An ADD_DELTA whose taps all fall below DEPTH runs the tap loop, its zero no-op included. -/
theorem exec_addDelta_of_fits {s : State} (hinv : s.Inv) (hready : s.ready = true) (h32 : s.arg0.toNat < 2 ^ 32)
    (hmin : -2 ^ 31 ≤ s.arg1.toInt) (hmax : s.arg1.toInt < 2 ^ 31)
    (hfit : deltaBase s s.arg0.toNat + (activeKernel s).length ≤ s.cfg.depth) :
    exec .addDelta s =
      .next { s with acc := accAddTaps s.acc (deltaBase s s.arg0.toNat) s.arg1.toInt (activeKernel s) } := by
  have ht := operandU32_of_lt h32
  by_cases h0 : s.arg1.toInt = 0
  · rw [h0, accAddTaps_zero _ hinv.accCanonical hfit]
    simp [exec, execAddDelta, ht, operandS32_of_range hmin hmax, h0]
  · simp only [exec, execAddDelta, ht, operandS32_of_range hmin hmax, toNat_of_operandU32 ht, h0, hready,
      Nat.not_lt.2 hfit, if_false, Bool.not_true, Bool.false_eq_true]

/-- Settles O42: all taps fall on the slots that are summed, and the active kernel's taps sum to 2^15. -/
theorem deltaHasUnitGain : Obligations.DeltaHasUnitGain := by
  unfold Obligations.DeltaHasUnitGain
  intro s hinv hready h32 hmin hmax hfit
  refine ⟨_, exec_addDelta_of_fits hinv hready h32 hmin hmax hfit, rfl, ?_⟩
  refine (slotSum_accAddTaps _ _ hinv.accCanonical hfit _).trans ?_
  rw [List.take_of_length_le (Nat.le_sub_of_add_le' hfit), activeKernel_sum hinv.cfgLegal]
  rfl

/-- Settles O43: the sum of the first n slots meets the first n - base taps. -/
theorem slotsSumToTheStepResponse : Obligations.SlotsSumToTheStepResponse := by
  unfold Obligations.SlotsSumToTheStepResponse
  intro s hinv hready h32 hmin hmax hsilent base hfit
  have hsum := slotSum_accAddTaps s.arg1.toInt _ hinv.accCanonical hfit
  simp only [slotSum_of_silent hsilent, zero_add] at hsum
  refine ⟨_, exec_addDelta_of_fits hinv hready h32 hmin hmax hfit, fun n hn => ?_, fun m => ?_⟩
  · refine (hsum n).trans ?_
    rw [Nat.sub_eq_zero_of_le hn, List.take_zero, List.sum_nil, Int.mul_zero]
    rfl
  · refine (hsum (base + m)).trans ?_
    rw [Nat.add_sub_cancel_left]

end Sys2Proof.Machine
end

section
/-! The statements of 41_accumulator.md: SET_RATES (O31, O32), CLEAR (O36), CLOCKS_NEEDED (O37, O38), ADD_DELTA (O39, O40,
O41, O44), END_FRAME and the long run (O45, O46, O47), SAMPLES_AVAIL (O48), the checks they share (O28, O30), and the first
sample after CLEAR (O54). -/

namespace Sys2Proof.Machine

/-! ### The commands with legal operands (R115, R116, R160) -/

section
variable {s : State} (h32 : s.arg0.toNat < 2 ^ 32)
include h32

/-- The 32-bit operand of ARG0, by its number (R115). -/
theorem exists_operandU32 :
    ∃ n, operandU32 s.arg0 = some n ∧ n.toNat = s.arg0.toNat ∧ (n = 0 ↔ s.arg0.toNat = 0) := by
  have hn := operandU32_of_lt h32
  have hnat := toNat_of_operandU32 hn
  exact ⟨_, hn, hnat, by rw [← hnat, ← BitVec.toNat_inj]; rfl⟩

/-- The checks of ADD_DELTA in R160's order. -/
theorem exec_addDelta_of_operands (hmin : -2 ^ 31 ≤ s.arg1.toInt) (hmax : s.arg1.toInt < 2 ^ 31) :
    exec .addDelta s =
      if s.arg1 = 0 then .next s
      else if s.ready = false then .next (reject .uninit s)
      else if s.cfg.depth < deltaBase s s.arg0.toNat + (activeKernel s).length then .next (reject .capacity s)
      else .next { s with
        acc := accAddTaps s.acc (deltaBase s s.arg0.toNat) s.arg1.toInt (activeKernel s) } := by
  obtain ⟨n, hn, hnat, -⟩ := exists_operandU32 h32
  have hzero : s.arg1.toInt = 0 ↔ s.arg1 = 0 := by
    rw [← BitVec.toInt_inj]
    rfl
  simp only [exec, execAddDelta, hn, operandS32_of_range hmin hmax, hnat, hzero, rejected_eq, Bool.not_eq_true']

/-- The checks of END_FRAME in R160's order. -/
theorem exec_endFrame_of_operand :
    exec .endFrame s =
      if s.arg0.toNat = 0 then .next s
      else if s.ready = false then .next (reject .uninit s)
      else if s.cfg.size < s.avail + positionAt s s.arg0.toNat / 2 ^ 32 then .next (reject .capacity s)
      else .next { s with
        avail := s.avail + positionAt s s.arg0.toNat / 2 ^ 32
        offset := positionAt s s.arg0.toNat % 2 ^ 32 } := by
  obtain ⟨n, hn, hnat, hzero⟩ := exists_operandU32 h32
  simp only [exec, execEndFrame, hn, hnat, hzero, rejected_eq, Bool.not_eq_true']

/-- The checks of CLOCKS_NEEDED in R160's order. -/
theorem exec_clocksNeeded_of_operand :
    exec .clocksNeeded s =
      if s.arg0.toNat = 0 then .next (setResult 0 s)
      else if s.ready = false then .next (reject .uninit s)
      else if s.cfg.size < s.avail + s.arg0.toNat then .next (reject .capacity s)
      else .next (setResult (ticksFor s s.arg0.toNat) s) := by
  obtain ⟨n, hn, hnat, hzero⟩ := exists_operandU32 h32
  simp only [exec, execClocksNeeded, hn, hnat, hzero, rejected_eq, Bool.not_eq_true']

end

/-- Where the last index is not below PCM_LEN, READ_SAMPLES is rejected with RANGE (R201). -/
theorem execReadSamples_of_outOfRange {st : Bool} {s : State} (h32 : s.arg0.toNat < 2 ^ 32)
    (hc : min s.arg0.toNat s.avail ≠ 0)
    (hp : s.pcmLen.toNat ≤ s.arg1.toNat + (min s.arg0.toNat s.avail - 1) * strideOf st) :
    execReadSamples st s = .next (reject .range s) := by
  obtain ⟨n, hn, hnat, -⟩ := exists_operandU32 h32
  have hcount : readCount s n = min s.arg0.toNat s.avail := by rw [readCount, hnat]
  simp only [execReadSamples, hn, hcount, if_neg hc, if_pos hp, rejected_eq]

/-- A READ_SAMPLES is rejected with OPERAND or RANGE, or it keeps ERR. -/
theorem execReadSamples_err {st : Bool} {s t : State} (h : execReadSamples st s = .next t) :
    t = reject .operand s ∨ t = reject .range s ∨ t.err = s.err := by
  by_cases h32 : s.arg0.toNat < 2 ^ 32
  · by_cases hc : min s.arg0.toNat s.avail = 0
    · rw [execReadSamples_of_zero h32 hc, next_inj] at h
      exact .inr (.inr (h ▸ rfl))
    · by_cases hp : s.arg1.toNat + (min s.arg0.toNat s.avail - 1) * strideOf st < s.pcmLen.toNat
      · rw [execReadSamples_of_inRange h32 hc hp, next_inj] at h
        exact .inr (.inr (h ▸ rfl))
      · rw [execReadSamples_of_outOfRange h32 hc (Nat.le_of_not_lt hp), next_inj] at h
        exact .inr (.inl h.symm)
  · obtain ⟨hop, -⟩ := operandsOutOfRangeAreRejected s
    exact .inl (next_inj.1 (h.symm.trans
      (hop (Nat.le_of_not_lt h32) _ (.inr (.inr (.inr (.inr ⟨st, rfl⟩)))))))

/-! ### UNINIT (R222) -/

/-- From a state without ERR bits only the rejection with UNINIT sets its bit (R220). -/
theorem reject_uninitBit {s : State} (he : s.err = 0) {c : Cause} (hc : c ≠ .uninit) :
    (reject c s).err.getLsbD 1 = false := by
  rw [reject_err, he]
  cases c with
  | uninit => exact absurd rfl hc
  | _ => decide

/-- Settles O28: Ready is checked after the operand and the zero no-op, and the other five commands do not check it. -/
theorem uninitializedStateGatesThreeCommands : Obligations.UninitializedStateGatesThreeCommands := by
  unfold Obligations.UninitializedStateGatesThreeCommands
  intro s hready
  refine ⟨fun h32 hmin hmax h0 => ?_, fun hpos h32 => ⟨?_, ?_⟩, fun i t hi he h => ?_⟩
  · rw [exec_addDelta_of_operands h32 hmin hmax, if_neg h0, if_pos hready]
  · rw [exec_endFrame_of_operand h32, if_neg hpos.ne', if_pos hready]
  · rw [exec_clocksNeeded_of_operand h32, if_neg hpos.ne', if_pos hready]
  · have hkept : ∀ {u : State}, u.err = s.err → u.err.getLsbD 1 = false := fun hu => by rw [hu, he]; rfl
    rcases hi with rfl | rfl | rfl | rfl | ⟨st, rfl⟩
    · rcases execSetRates_cases h with rfl | ⟨-, -, -, -, -, rfl⟩
      · exact reject_uninitBit he (by decide)
      · exact hkept rfl
    · rcases execSetCutoff_cases h with ⟨-, rfl⟩ | ⟨-, -, rfl⟩ | ⟨cut, -, -, rfl⟩
      · exact reject_uninitBit he (by decide)
      · exact reject_uninitBit he (by decide)
      · exact hkept rfl
    · exact hkept (execClear_cases h ▸ rfl)
    · exact hkept (execSamplesAvail_cases h ▸ rfl)
    · rcases execReadSamples_err h with rfl | rfl | hu
      · exact reject_uninitBit he (by decide)
      · exact reject_uninitBit he (by decide)
      · exact hkept hu

/-- Settles O30: each command looks for its zero right after the operand's range, and nothing is available to read where
AVAIL is 0. -/
theorem zeroOperandsAreNoOps : Obligations.ZeroOperandsAreNoOps := by
  unfold Obligations.ZeroOperandsAreNoOps
  intro s
  refine ⟨fun h32 h0 => ?_, fun h0 => ?_, fun h32 havail st => ?_⟩
  · rw [exec_addDelta_of_operands h32 (by rw [h0]; decide) (by rw [h0]; decide), if_pos h0]
  · have hnat : s.arg0.toNat = 0 := by rw [h0]; rfl
    have h32 : s.arg0.toNat < 2 ^ 32 := by omega
    refine ⟨?_, ?_, fun st => execReadSamples_of_zero h32 (by rw [hnat, Nat.zero_min])⟩
    · rw [exec_endFrame_of_operand h32, if_pos hnat]
    · rw [exec_clocksNeeded_of_operand h32, if_pos hnat]
      rfl
  · exact execReadSamples_of_zero h32 (by rw [havail, Nat.min_zero])

/-! ### SET_RATES (R161 to R164) -/

theorem exec_setRates_of_valid {s : State} (hc : isFinite64 s.arg0 = true) (hs : isFinite64 s.arg1 = true)
    (hcr : isPositive64 s.arg0 = true) (hsr : isPositive64 s.arg1 = true) (hmax : factorOf s.arg0 s.arg1 ≤ 2 ^ 32) :
    exec .setRates s = .next { s with
      factor := factorOf s.arg0 s.arg1, sampleRate := s.arg1, ready := true
      ksel := selectKernel s.cfg s.arg1 s.cutoff } := by
  simp [exec, execSetRates, hc, hs, hcr, hsr, Nat.not_lt.2 hmax]

theorem exec_setRates_of_invalid {s : State}
    (h : isFinite64 s.arg0 = false ∨ isFinite64 s.arg1 = false ∨ isPositive64 s.arg0 = false ∨
      isPositive64 s.arg1 = false ∨ 2 ^ 32 < factorOf s.arg0 s.arg1) :
    exec .setRates s = .next (reject .rate s) := by
  obtain ⟨t, ht⟩ := exec_answers_next .setRates s
  rcases execSetRates_cases ht with rfl | ⟨hc, hs, hcr, hsr, hmax, -⟩
  · exact ht
  · simp only [hc, hs, hcr, hsr, Bool.true_eq_false, false_or] at h
    omega

theorem isPositive64_iff (x : Word) : isPositive64 x = true ↔ 0 < binary64Rat x := by
  have hpow : (0 : ℚ) < 2 ^ ((scaleOf x : ℤ) - 1075) := by positivity
  rw [isPositive64, binary64Rat_eq]
  cases signBit x with
  | true =>
    have : (0 : ℚ) ≤ significand x * 2 ^ ((scaleOf x : ℤ) - 1075) := by positivity
    simpa using this
  | false => simp [Nat.pos_iff_ne_zero, hpow]

/-- `ceil_div` is the ceiling of the exact quotient (R17). -/
theorem ceilDiv_eq_ceil (a : Nat) {b : Nat} (hb : 0 < b) : ceilDiv a b = ⌈(a / b : ℚ)⌉₊ := by
  refine eq_of_forall_ge_iff fun q => ?_
  rw [ceilDiv_le_iff hb, Nat.ceil_le, div_le_iff₀ (Nat.cast_pos.2 hb)]
  exact_mod_cast Iff.rfl

section
variable {cr sr : Word} (hcr : 0 < binary64Rat cr) (hsr : 0 < binary64Rat sr)
include hcr hsr

/-- The exact quotient of R161 by the integers the machine computes with. -/
theorem rateQuotient_eq : 2 ^ 32 * binary64Rat sr / binary64Rat cr =
    2 ^ 32 * (significand sr * 2 ^ scaleOf sr : ℕ) / ((significand cr * 2 ^ scaleOf cr : ℕ) : ℚ) := by
  rw [← abs_of_pos hcr, ← abs_of_pos hsr, abs_binary64Rat, abs_binary64Rat, mul_div_assoc,
    div_div_div_cancel_right₀ (by positivity), mul_div_assoc]

/-- The factor is the ceiling of the exact quotient (R161, R164). -/
theorem factorOf_eq_ceil : factorOf cr sr = ⌈2 ^ 32 * binary64Rat sr / binary64Rat cr⌉₊ := by
  have hc : 0 < significand cr := isPositive64_significand_pos ((isPositive64_iff cr).2 hcr)
  have hcq : (significand cr : ℚ) ≠ 0 := by exact_mod_cast hc.ne'
  rw [rateQuotient_eq hcr hsr]
  unfold factorOf
  split
  · rename_i hle
    obtain ⟨k, hk⟩ := Nat.exists_eq_add_of_le hle
    rw [ceilDiv_eq_ceil _ hc, hk, Nat.add_sub_cancel_left]
    congr 1
    push_cast
    field_simp
    ring
  · rename_i hlt
    obtain ⟨k, hk⟩ := Nat.exists_eq_add_of_le (Nat.le_of_not_le hlt)
    rw [ceilDiv_eq_ceil _ (by positivity), hk, Nat.add_sub_cancel_left]
    congr 1
    push_cast
    field_simp
    ring

end

/-- Settles O31: for positive rates the factor is the exact ceiling. -/
theorem setRatesTakesTheExactCeiling : Obligations.SetRatesTakesTheExactCeiling := by
  unfold Obligations.SetRatesTakesTheExactCeiling
  intro s q hc hs hcr hsr hmax
  have hfac : factorOf s.arg0 s.arg1 = ⌈q⌉.toNat := by rw [factorOf_eq_ceil hcr hsr, Int.ceil_toNat]
  rw [exec_setRates_of_valid hc hs ((isPositive64_iff _).2 hcr) ((isPositive64_iff _).2 hsr) (by omega), hfac]

/-- Settles O32: the machine's checks are R162's, on the exact values. -/
theorem setRatesRejectsInvalidRates : Obligations.SetRatesRejectsInvalidRates := by
  unfold Obligations.SetRatesRejectsInvalidRates
  intro s h
  refine exec_setRates_of_invalid ?_
  simp only [← Bool.not_eq_true, isPositive64_iff, not_lt] at h ⊢
  by_cases hcr : binary64Rat s.arg0 ≤ 0
  · exact .inr (.inr (.inl hcr))
  by_cases hsr : binary64Rat s.arg1 ≤ 0
  · exact .inr (.inr (.inr (.inl hsr)))
  have hfac := factorOf_eq_ceil (not_le.1 hcr) (not_le.1 hsr)
  rw [← Int.ceil_toNat] at hfac
  simp only [hcr, hsr, false_or] at h ⊢
  exact h.imp_right (Or.imp_right fun hmax => by omega)

/-- Settles O47: the factor is less than 1 above the exact quotient, and the half of it that the offset starts from is at
most half a sample. -/
theorem longRunDriftIsBounded : Obligations.LongRunDriftIsBounded := by
  unfold Obligations.LongRunDriftIsBounded
  intro cr sr n _ _ hcr hsr hmax made ideal
  have hfac := factorOf_eq_ceil hcr hsr
  set f := factorOf cr sr
  set q := 2 ^ 32 * binary64Rat sr / binary64Rat cr
  have hideal : ideal * 2 ^ 32 = n * q := by simp only [ideal, q]; ring
  have hlow : n * q ≤ n * (f : ℚ) := by
    rw [hfac]
    gcongr
    exact Nat.le_ceil q
  have hhigh : n * (f : ℚ) ≤ n * (q + 1) := by
    have hq : 0 ≤ q := by positivity
    rw [hfac]
    gcongr
    exact (Nat.ceil_lt_add_one hq).le
  have hmade : ((n * f + f / 2) / 2 ^ 32) * 2 ^ 32 ≤ n * f + 2 ^ 31 ∧
      n * f < ((n * f + f / 2) / 2 ^ 32 + 1) * 2 ^ 32 := by omega
  obtain ⟨hup, hdown⟩ := hmade
  have hup' : made * 2 ^ 32 ≤ n * f + 2 ^ 31 := by simp only [made]; exact_mod_cast hup
  have hdown' : (n * f : ℚ) < (made + 1) * 2 ^ 32 := by simp only [made]; exact_mod_cast hdown
  constructor <;> linarith

/-! ### CLEAR and SAMPLES_AVAIL (R165, R180) -/

/-- Settles O36: a second CLEAR finds the fields it writes as it writes them. -/
theorem clearZeroesTheBuffer : Obligations.ClearZeroesTheBuffer := by
  unfold Obligations.ClearZeroesTheBuffer
  exact fun s => ⟨_, rfl, accRead_nil, rfl, rfl, rfl⟩

/-- Settles O48: by the invariant AVAIL is at most SIZE, which 64 bits hold. -/
theorem samplesAvailAnswersAvail : Obligations.SamplesAvailAnswersAvail := by
  unfold Obligations.SamplesAvailAnswersAvail
  refine fun s => ⟨_, rfl, rfl, rfl, fun hinv => ?_⟩
  obtain ⟨-, hsize, -⟩ := (configLegal_iff s.cfg).1 hinv.cfgLegal
  have havail := hinv.availLe
  exact Nat.mod_eq_of_lt (by omega)

/-! ### CLOCKS_NEEDED and END_FRAME (R166, R167, R176) -/

/-- The tick count of R166 is the least whose position reaches n samples. -/
theorem ticksFor_le_iff {s : State} (hf : 0 < s.factor) (n k : Nat) :
    ticksFor s n ≤ k ↔ n * 2 ^ 32 ≤ positionAt s k := by
  unfold ticksFor positionAt timeUnit
  split
  · omega
  · rw [ceilDiv_le_iff hf]
    omega

section
variable {s : State} (hinv : s.Inv)
include hinv

theorem ticksFor_pos {n : Nat} (hn : 0 < n) : 0 < ticksFor s n := by
  have hzero := ticksFor_le_iff hinv.factorPos n 0
  have hoff := hinv.offsetLt
  simp only [positionAt, Nat.zero_mul] at hzero
  omega

/-- A tick count for at most SIZE samples fits RESULT. -/
theorem ticksFor_lt {n : Nat} (hn : n ≤ s.cfg.size) : ticksFor s n < 2 ^ 64 := by
  obtain ⟨-, hsize, -⟩ := (configLegal_iff s.cfg).1 hinv.cfgLegal
  have hle : ticksFor s n ≤ n * 2 ^ 32 := (ticksFor_le_iff hinv.factorPos n _).2 <|
    Nat.le_add_right_of_le (Nat.le_mul_of_pos_right _ hinv.factorPos)
  omega

/-- A tick moves the position by at most one sample, so the least tick count that reaches n samples reaches no more. -/
theorem positionAt_ticksFor_div {n : Nat} (hn : 0 < n) : positionAt s (ticksFor s n) / 2 ^ 32 = n := by
  obtain ⟨k, hk⟩ := Nat.exists_eq_add_of_lt (ticksFor_pos hinv hn)
  have hreach := ticksFor_le_iff hinv.factorPos n (k + 1)
  have hprev := ticksFor_le_iff hinv.factorPos n k
  have hsucc : positionAt s (k + 1) = positionAt s k + s.factor := by
    simp only [positionAt, Nat.succ_mul]
    omega
  have hmax := hinv.factorMax
  rw [hk, Nat.zero_add]
  omega

/-- One tick less does not reach n samples. -/
theorem positionAt_pred_ticksFor_div_lt {n : Nat} (hn : 0 < n) : positionAt s (ticksFor s n - 1) / 2 ^ 32 < n := by
  have hpos := ticksFor_pos hinv hn
  have hprev := ticksFor_le_iff hinv.factorPos n (ticksFor s n - 1)
  omega

/-- An END_FRAME that fits SIZE commits its position, its zero no-op included. -/
theorem exec_endFrame_of_fits (hready : s.ready = true) (h32 : s.arg0.toNat < 2 ^ 32)
    (hfit : s.avail + positionAt s s.arg0.toNat / 2 ^ 32 ≤ s.cfg.size) :
    exec .endFrame s = .next { s with
      avail := s.avail + positionAt s s.arg0.toNat / 2 ^ 32
      offset := positionAt s s.arg0.toNat % 2 ^ 32 } := by
  rw [exec_endFrame_of_operand h32]
  split
  · rename_i h0
    have hpos : positionAt s s.arg0.toNat = s.offset := by rw [positionAt, h0, Nat.zero_mul, Nat.zero_add]
    rw [hpos, Nat.div_eq_of_lt hinv.offsetLt, Nat.mod_eq_of_lt hinv.offsetLt]
    rfl
  · rw [if_neg (by simp [hready]), if_neg (Nat.not_lt.2 hfit)]

/-- An END_FRAME of n ticks that fits SIZE is accepted and makes the whole samples of its position available. -/
theorem exec_endFrame_makes (hready : s.ready = true) {k : Word} {n : Nat} (hk : k.toNat = n) (h32 : n < 2 ^ 32)
    (hfit : s.avail + positionAt s n / 2 ^ 32 ≤ s.cfg.size) :
    ∃ u, exec .endFrame { s with arg0 := k } = .next u ∧ u.err = s.err ∧ u.lastErr = s.lastErr ∧
      u.avail = s.avail + positionAt s n / 2 ^ 32 := by
  subst hk
  exact ⟨_, exec_endFrame_of_fits (s := { s with arg0 := k }) { hinv with } hready h32 hfit, rfl, rfl, rfl⟩

/-- A CLOCKS_NEEDED for 1 to SIZE - AVAIL samples answers the tick count. -/
theorem exec_clocksNeeded_of_fits (hready : s.ready = true) (hpos : 0 < s.arg0.toNat) (h32 : s.arg0.toNat < 2 ^ 32)
    (hfit : s.avail + s.arg0.toNat ≤ s.cfg.size) :
    exec .clocksNeeded s = .next (setResult (ticksFor s s.arg0.toNat) s) ∧
      (setResult (ticksFor s s.arg0.toNat) s).result.toNat = ticksFor s s.arg0.toNat := by
  refine ⟨?_, ?_⟩
  · rw [exec_clocksNeeded_of_operand h32, if_neg hpos.ne', if_neg (by simp [hready]), if_neg (Nat.not_lt.2 hfit)]
  · rw [setResult_result, BitVec.toNat_ofNat, Nat.mod_eq_of_lt (ticksFor_lt hinv (by omega))]

end

/-- Settles O37: RESULT holds R166's tick count, which is the least that reaches the samples. -/
theorem clocksNeededAnswersTheLeastTickCount : Obligations.ClocksNeededAnswersTheLeastTickCount := by
  unfold Obligations.ClocksNeededAnswersTheLeastTickCount
  refine fun s hinv hready hpos h32 => ⟨fun hfit => ?_, fun hover => ?_⟩
  · obtain ⟨hx, hres⟩ := exec_clocksNeeded_of_fits hinv hready hpos h32 hfit
    have hle := ticksFor_le_iff hinv.factorPos s.arg0.toNat
    refine ⟨_, hx, rfl, ?_⟩
    rw [hres]
    exact ⟨(hle _).1 (Nat.le_refl _), fun k hk => (hle k).2 hk⟩
  · rw [exec_clocksNeeded_of_operand h32, if_neg hpos.ne', if_neg (by simp [hready]), if_pos hover]

/-- Settles O38: the least tick count reaches exactly n samples, and one tick less fewer, so both END_FRAMEs fit SIZE. -/
theorem clocksNeededIsMinimalForEndFrame : Obligations.ClocksNeededIsMinimalForEndFrame := by
  unfold Obligations.ClocksNeededIsMinimalForEndFrame
  intro s t hinv hready hpos h32 hfit hx
  obtain ⟨hanswer, hres⟩ := exec_clocksNeeded_of_fits hinv hready hpos h32 hfit
  obtain rfl := next_inj.1 (hanswer.symm.trans hx)
  rw [hres]
  have htick := ticksFor_pos hinv hpos
  have hmade := positionAt_ticksFor_div hinv hpos
  have hless := positionAt_pred_ticksFor_div_lt hinv hpos
  refine ⟨htick, fun hk => ?_, fun hk => ?_⟩
  · obtain ⟨u, hu, herr, hlast, havail⟩ := exec_endFrame_makes hinv hready hres hk (by omega)
    exact ⟨u, hu, herr, hlast, by omega⟩
  · have hpred : ((setResult (ticksFor s s.arg0.toNat) s).result - 1).toNat = ticksFor s s.arg0.toNat - 1 := by
      rw [BitVec.toNat_sub_of_le, hres]
      · rfl
      · rw [BitVec.le_def, hres]
        exact htick
    obtain ⟨u, hu, herr, hlast, havail⟩ := exec_endFrame_makes hinv hready hpred (by omega) (by omega)
    exact ⟨u, hu, herr, hlast, by omega⟩

/-- Settles O45: the committed position is split into whole samples and the fraction. -/
theorem endFrameCommitsTheFrame : Obligations.EndFrameCommitsTheFrame := by
  unfold Obligations.EndFrameCommitsTheFrame
  intro s hready hpos h32
  rw [← positionAt, exec_endFrame_of_operand h32, if_neg hpos.ne', if_neg (by simp [hready])]
  refine ⟨fun hfit => ?_, fun hover => if_pos hover⟩
  rw [if_neg (Nat.not_lt.2 hfit)]
  refine ⟨_, rfl, rfl, Nat.mod_lt _ (by decide), ?_⟩
  have hsplit := Nat.div_add_mod (positionAt s s.arg0.toNat) (2 ^ 32)
  have hpos : positionAt s s.arg0.toNat = s.arg0.toNat * s.factor + s.offset := rfl
  simp only
  omega

/-! ### ADD_DELTA (R170 to R174, R207) -/

/-- Settles O39: the tap loop's effect, slot by slot. -/
theorem addDeltaSpreadsTheKernel : Obligations.AddDeltaSpreadsTheKernel := by
  unfold Obligations.AddDeltaSpreadsTheKernel
  intro s hinv hready h32 hmin hmax _ base k hfit
  have hread := fun j => accRead_accAddTaps s.arg1.toInt k j hinv.accCanonical hfit
  refine ⟨_, exec_addDelta_of_fits hinv hready h32 hmin hmax hfit, rfl, fun i hi => ?_, fun j hj => ?_⟩
  · refine (hread (base + i)).trans ?_
    rw [if_pos (by omega), Nat.add_sub_cancel_left, List.getD_eq_getElem _ _ hi]
  · exact (hread j).trans (if_neg (by omega))

/-- Settles O40: a tap at or beyond DEPTH is one that the check of the last slot finds. -/
theorem deltaBeyondTheBufferIsRejected : Obligations.DeltaBeyondTheBufferIsRejected := by
  unfold Obligations.DeltaBeyondTheBufferIsRejected
  rintro s hready h32 hmin hmax h0 ⟨i, hi, hbeyond⟩
  rw [exec_addDelta_of_operands h32 hmin hmax, if_neg h0, if_neg (by simp [hready]), if_pos ?_]
  simp only [deltaBase, positionAt, timeUnit]
  omega

/-- Settles O44: no tap falls below AVAIL. -/
theorem availableSamplesAreFinal : Obligations.AvailableSamplesAreFinal := by
  unfold Obligations.AvailableSamplesAreFinal
  intro s t hinv hx j hj
  rcases execAddDelta_cases hx with ⟨c, rfl⟩ | ⟨n, -, -, rfl⟩ | ⟨n, d, -, -, -, -, hfit, rfl⟩
  · rfl
  · rfl
  · have hbase : s.avail ≤ deltaBase s n.toNat := Nat.le_add_right _ _
    exact (accRead_accAddTaps d _ j hinv.accCanonical hfit).trans (if_neg (by omega))

/-! ### Runs of commands (R224, R227, R228) -/

theorem State.Inv.withArgs {s : State} (h : s.Inv) (a0 a1 : Word) : (s.withArgs a0 a1).Inv := { h with }

theorem issueAll_cons_eq_next {c : Command} {cs : List Command} {s t : State} :
    issueAll (c :: cs) s = .next t ↔ ∃ u, issue c s = .next u ∧ issueAll cs u = .next t := by
  obtain ⟨u, hu⟩ := exec_answers_next c.instr (s.withArgs c.arg0 c.arg1)
  have hu' : issue c s = .next u := hu
  simp only [issueAll, hu', next_inj, exists_eq_left']

theorem issueAll_answers_next (cs : List Command) (s : State) : ∃ t, issueAll cs s = .next t := by
  induction cs generalizing s with
  | nil => exact ⟨s, rfl⟩
  | cons c cs ih =>
    obtain ⟨u, hu⟩ := exec_answers_next c.instr (s.withArgs c.arg0 c.arg1)
    obtain ⟨t, ht⟩ := ih u
    exact ⟨t, issueAll_cons_eq_next.2 ⟨u, hu, ht⟩⟩

theorem issue_inv {c : Command} {s t : State} (hinv : s.Inv) (h : issue c s = .next t) : t.Inv :=
  exec_inv (hinv.withArgs c.arg0 c.arg1) h

theorem issueAll_inv {cs : List Command} {s t : State} (hinv : s.Inv) (h : issueAll cs s = .next t) : t.Inv := by
  induction cs generalizing s with
  | nil => exact next_inj.1 h ▸ hinv
  | cons c cs ih =>
    obtain ⟨u, hu, ht⟩ := issueAll_cons_eq_next.1 h
    exact ih (issue_inv hinv hu) ht

theorem reject_not_clean (c : Cause) (s : State) : ¬(reject c s).Clean := by
  intro h
  have hbit : (raiseErr c s.err).getLsbD (c.code - 1) = true := by
    cases c <;> simp [raiseErr, Cause.code]
  rw [State.Clean, reject_err] at h
  simp [h] at hbit

/-- A command is rejected, or it keeps ERR and LAST_ERR (R224). -/
theorem exec_rejects_or_keepsErr {i : Instr} {s t : State} (h : exec i s = .next t) :
    (∃ c, t = reject c s) ∨ (t.err = s.err ∧ t.lastErr = s.lastErr) := by
  cases i with
  | setRates =>
    rcases execSetRates_cases h with rfl | ⟨-, -, -, -, -, rfl⟩
    exacts [.inl ⟨_, rfl⟩, .inr ⟨rfl, rfl⟩]
  | setCutoff =>
    rcases execSetCutoff_cases h with ⟨-, rfl⟩ | ⟨-, -, rfl⟩ | ⟨cut, -, -, rfl⟩
    exacts [.inl ⟨_, rfl⟩, .inl ⟨_, rfl⟩, .inr ⟨rfl, rfl⟩]
  | clear =>
    obtain rfl := execClear_cases h
    exact .inr ⟨rfl, rfl⟩
  | clocksNeeded =>
    rcases execClocksNeeded_cases h with hc | ⟨-, rfl⟩ | ⟨n, -, -, -, -, rfl⟩
    exacts [.inl hc, .inr ⟨rfl, rfl⟩, .inr ⟨setResult_err _ _, setResult_lastErr _ _⟩]
  | addDelta =>
    rcases execAddDelta_cases h with hc | ⟨n, -, -, rfl⟩ | ⟨n, d, -, -, -, -, -, rfl⟩
    exacts [.inl hc, .inr ⟨rfl, rfl⟩, .inr ⟨rfl, rfl⟩]
  | endFrame =>
    rcases execEndFrame_cases h with hc | ⟨-, rfl⟩ | ⟨n, -, -, -, -, rfl⟩
    exacts [.inl hc, .inr ⟨rfl, rfl⟩, .inr ⟨rfl, rfl⟩]
  | samplesAvail =>
    obtain rfl := execSamplesAvail_cases h
    exact .inr ⟨setResult_err _ _, setResult_lastErr _ _⟩
  | readSamples st =>
    rcases execReadSamples_cases h with hc | ⟨n, -, -, rfl⟩ | ⟨n, -, -, -, rfl⟩
    exacts [.inl hc, .inr ⟨rfl, rfl⟩, .inr ⟨setResult_err _ _, setResult_lastErr _ _⟩]

/-- A command that leaves no ERR bit found none (R227). -/
theorem clean_of_issue {c : Command} {s t : State} (h : issue c s = .next t) (hclean : t.Clean) : s.Clean := by
  rcases exec_rejects_or_keepsErr h with ⟨cause, rfl⟩ | ⟨herr, -⟩
  · exact absurd hclean (reject_not_clean cause _)
  · exact herr.symm.trans hclean

theorem clean_of_issueAll {cs : List Command} {s t : State} (h : issueAll cs s = .next t) (hclean : t.Clean) :
    s.Clean := by
  induction cs generalizing s with
  | nil => exact next_inj.1 h ▸ hclean
  | cons c cs ih =>
    obtain ⟨u, hu, ht⟩ := issueAll_cons_eq_next.1 h
    exact clean_of_issue hu (ih ht)

/-! ### The order of deltas (R174) -/

/-- The word an accepted ADD_DELTA of time `d.1` and amplitude `d.2` adds to slot j. -/
def deltaSlot (s : State) (d : Word × Word) (j : Nat) : Word :=
  if deltaBase s d.1.toNat ≤ j ∧ j < deltaBase s d.1.toNat + (activeKernel s).length then
    BitVec.ofInt 64 (d.2.toInt * (activeKernel s).getD (j - deltaBase s d.1.toNat) 0)
  else 0

/-- An ADD_DELTA with these operands is not rejected (R160, R173). -/
def DeltaAccepted (s : State) (d : Word × Word) : Prop :=
  d.1.toNat < 2 ^ 32 ∧ -2 ^ 31 ≤ d.2.toInt ∧ d.2.toInt < 2 ^ 31 ∧
    (d.2 = 0 ∨ s.ready = true ∧ deltaBase s d.1.toNat + (activeKernel s).length ≤ s.cfg.depth)

/-- What accepted deltas change: ACC and the operand registers. -/
def AfterDeltas (s t : State) : Prop := ∃ acc a0 a1, t = { s with acc := acc, arg0 := a0, arg1 := a1 }

section
variable {s t : State}

theorem deltaAccepted_of_clean {d : Word × Word} (h : issue (deltaCommand d.1 d.2) s = .next t) (hclean : t.Clean) :
    DeltaAccepted s d := by
  rcases execAddDelta_cases h with ⟨c, rfl⟩ | ⟨n, hn, hd, -⟩ | ⟨n, a, hn, hd, -, hready, hfit, -⟩
  · exact absurd hclean (reject_not_clean c _)
  all_goals
    have h32 := (operandU32_isSome_iff _).1 (by rw [hn]; rfl)
    obtain ⟨hval, hmin, hmax⟩ := operandS32_eq_some hd
  · exact ⟨h32, hmin, hmax, .inl (BitVec.eq_of_toInt_eq hval.symm)⟩
  · rw [toNat_of_operandU32 hn] at hfit
    exact ⟨h32, hmin, hmax, .inr ⟨hready, hfit⟩⟩

theorem issue_delta_of_accepted {d : Word × Word} (hinv : s.Inv) (hd : DeltaAccepted s d)
    (h : issue (deltaCommand d.1 d.2) s = .next t) :
    AfterDeltas s t ∧ ∀ j, accRead t.acc j = accRead s.acc j + deltaSlot s d j := by
  obtain ⟨h32, hmin, hmax, h0 | ⟨hready, hfit⟩⟩ := hd
  · obtain ⟨hzero, -⟩ := zeroOperandsAreNoOps (s.withArgs d.1 d.2)
    obtain rfl := next_inj.1 ((hzero h32 h0).symm.trans h)
    exact ⟨⟨_, _, _, rfl⟩, fun j => by simp [deltaSlot, h0]⟩
  · obtain rfl := next_inj.1
      ((exec_addDelta_of_fits (hinv.withArgs d.1 d.2) hready h32 hmin hmax hfit).symm.trans h)
    refine ⟨⟨_, _, _, rfl⟩, fun j => ?_⟩
    rw [deltaSlot, add_ite, add_zero]
    exact accRead_accAddTaps _ _ j hinv.accCanonical hfit

/-- A list of deltas that ends without ERR bits is a list of accepted deltas: no delta changes what the checks of the
others look at. -/
theorem deltasAccepted_of_clean {ds : List (Word × Word)} (hinv : s.Inv)
    (h : issueAll (ds.map fun d => deltaCommand d.1 d.2) s = .next t) (hclean : t.Clean) :
    ∀ d ∈ ds, DeltaAccepted s d := by
  induction ds generalizing s with
  | nil => simp
  | cons d ds ih =>
    obtain ⟨u, hu, ht⟩ := issueAll_cons_eq_next.1 h
    have hd := deltaAccepted_of_clean hu (clean_of_issueAll ht hclean)
    have hds := ih (issue_inv hinv hu) ht
    obtain ⟨⟨acc, a0, a1, rfl⟩, -⟩ := issue_delta_of_accepted hinv hd hu
    exact List.forall_mem_cons.2 ⟨hd, hds⟩

/-- Accepted deltas add up slot by slot. -/
theorem issueAll_deltas_of_accepted {ds : List (Word × Word)} (hinv : s.Inv) (hds : ∀ d ∈ ds, DeltaAccepted s d)
    (h : issueAll (ds.map fun d => deltaCommand d.1 d.2) s = .next t) :
    AfterDeltas s t ∧ ∀ j, accRead t.acc j = accRead s.acc j + (ds.map fun d => deltaSlot s d j).sum := by
  induction ds generalizing s with
  | nil =>
    obtain rfl := next_inj.1 h
    exact ⟨⟨_, _, _, rfl⟩, fun j => by simp⟩
  | cons d ds ih =>
    obtain ⟨u, hu, ht⟩ := issueAll_cons_eq_next.1 h
    obtain ⟨hd, hds⟩ := List.forall_mem_cons.1 hds
    have hrest := ih (issue_inv hinv hu)
    obtain ⟨⟨acc, a0, a1, rfl⟩, hslot⟩ := issue_delta_of_accepted hinv hd hu
    obtain ⟨⟨acc', a0', a1', rfl⟩, hslots⟩ := hrest hds ht
    refine ⟨⟨_, _, _, rfl⟩, fun j => ?_⟩
    rw [hslots, hslot, List.map_cons, List.sum_cons, add_assoc]
    rfl

end

/-- Settles O41: each delta of the other order is accepted too, and both orders add the same words to each slot. -/
theorem deltaOrderDoesNotMatter : Obligations.DeltaOrderDoesNotMatter := by
  unfold Obligations.DeltaOrderDoesNotMatter
  intro s t ds es hinv hperm ht hclean
  obtain ⟨u, hu⟩ := issueAll_answers_next (es.map fun d => deltaCommand d.1 d.2) s
  have hds := deltasAccepted_of_clean hinv ht hclean
  obtain ⟨⟨acc, a0, a1, rfl⟩, htslots⟩ := issueAll_deltas_of_accepted hinv hds ht
  obtain ⟨⟨acc', a0', a1', rfl⟩, huslots⟩ :=
    issueAll_deltas_of_accepted hinv (fun d hd => hds d (hperm.mem_iff.2 hd)) hu
  obtain rfl : acc = acc' := acc_ext (issueAll_inv hinv ht).accCanonical (issueAll_inv hinv hu).accCanonical fun j => by
    rw [htslots, huslots, (hperm.map _).sum_eq]
  exact ⟨_, hu, hclean, rfl⟩

/-! ### The long run (R177) -/

theorem committedTicks_cons (c : Command) (cs : List Command) :
    committedTicks (c :: cs) = (if c.instr = .endFrame then c.arg0.toNat else 0) + committedTicks cs := rfl

theorem madeAvailable_cons {c : Command} (cs : List Command) {s u : State} (h : issue c s = .next u) :
    madeAvailable (c :: cs) s = (u.avail - s.avail) + madeAvailable cs u := by simp only [madeAvailable, h]

section
variable {s t : State}

/-- READ_SAMPLES makes nothing available. -/
theorem execReadSamples_avail_le {st : Bool} (h : execReadSamples st s = .next t) : t.avail ≤ s.avail := by
  rcases execReadSamples_cases h with ⟨c, rfl⟩ | ⟨n, -, -, rfl⟩ | ⟨n, -, -, -, rfl⟩
  · exact Nat.le_refl _
  · exact Nat.le_refl _
  · rw [setResult_avail]
    exact Nat.sub_le _ _

/-- A command that is neither CLEAR nor END_FRAME makes nothing available and keeps OFFSET. -/
theorem exec_keepsPosition {i : Instr} (h : exec i s = .next t) (hc : i ≠ .clear) (he : i ≠ .endFrame) :
    t.avail ≤ s.avail ∧ t.offset = s.offset := by
  obtain ⟨-, -, -, hoff, havail, -⟩ := commandsWriteOnlyTheirFields i s t h
  constructor
  · by_cases hkept : t.avail = s.avail
    · exact hkept.le
    · rcases havail hkept with rfl | rfl | ⟨st, rfl⟩
      · exact absurd rfl hc
      · exact absurd rfl he
      · exact execReadSamples_avail_le h
  · by_contra hkept
    rcases hoff hkept with rfl | rfl
    · exact hc rfl
    · exact he rfl

/-- An accepted END_FRAME adds its ticks to the position: the whole samples to AVAIL, the fraction to OFFSET (R176). -/
theorem execEndFrame_position (h : execEndFrame s = .next t) (hclean : t.Clean) :
    (t.avail - s.avail) * 2 ^ 32 + t.offset = positionAt s s.arg0.toNat := by
  rcases execEndFrame_cases h with ⟨c, rfl⟩ | ⟨hn, rfl⟩ | ⟨n, hn, -, -, -, rfl⟩
  · exact absurd hclean (reject_not_clean c s)
  · rw [positionAt, ← toNat_of_operandU32 hn, Nat.sub_self]
    simp
  · rw [← toNat_of_operandU32 hn, Nat.add_sub_cancel_left]
    exact Nat.div_add_mod' _ _

/-- Whatever a command does that is not rejected and is neither SET_RATES nor CLEAR, the samples it makes available and
the new fraction together are the old fraction and the ticks it commits (R177). -/
theorem issue_position {c : Command} (h : issue c s = .next t) (hclean : t.Clean) (hc : c.instr ≠ .clear) :
    (t.avail - s.avail) * 2 ^ 32 + t.offset =
      (if c.instr = .endFrame then c.arg0.toNat else 0) * s.factor + s.offset := by
  obtain ⟨i, a0, a1⟩ := c
  by_cases he : i = .endFrame
  · subst he
    exact execEndFrame_position h hclean
  · obtain ⟨havail, hoff⟩ := exec_keepsPosition h hc he
    rw [withArgs_avail] at havail
    rw [if_neg he, hoff, withArgs_offset, Nat.sub_eq_zero_of_le havail, Nat.zero_mul, Nat.zero_mul]

/-- The samples made available and the last fraction are the first fraction and all committed ticks (R177). -/
theorem madeAvailable_position {cs : List Command} (hcs : ∀ c ∈ cs, c.instr ≠ .setRates ∧ c.instr ≠ .clear)
    (h : issueAll cs s = .next t) (hclean : t.Clean) :
    madeAvailable cs s * 2 ^ 32 + t.offset = committedTicks cs * s.factor + s.offset := by
  induction cs generalizing s with
  | nil =>
    obtain rfl := next_inj.1 h
    simp [madeAvailable, committedTicks]
  | cons c cs ih =>
    obtain ⟨u, hu, ht⟩ := issueAll_cons_eq_next.1 h
    obtain ⟨⟨hr, hc⟩, hcs⟩ := List.forall_mem_cons.1 hcs
    have hfirst := issue_position hu (clean_of_issueAll ht hclean) hc
    have hrest := ih hcs ht
    obtain ⟨hfactor, -⟩ := exec_keepsRates hu hr
    rw [hfactor, withArgs_factor] at hrest
    rw [madeAvailable_cons cs hu, committedTicks_cons]
    linarith

end

/-- Settles O46: the last fraction is below one sample, so the committed position's whole samples were made available. -/
theorem longRunCountIsExact : Obligations.LongRunCountIsExact := by
  unfold Obligations.LongRunCountIsExact
  intro s t cs hinv hoff hcs h hclean
  have hpos := madeAvailable_position hcs h hclean
  have hfrac := (issueAll_inv hinv h).offsetLt
  rw [← hoff, ← hpos]
  omega

/-! ### The first sample after CLEAR (R206) -/

/-- Only READ_SAMPLES gives INTEGRATOR a value other than 0 (R43, R165). -/
theorem exec_keepsZeroIntegrator {i : Instr} {s t : State} (h : exec i s = .next t) (hi : ∀ st, i ≠ .readSamples st)
    (h0 : s.integrator = 0) : t.integrator = 0 := by
  obtain ⟨-, -, -, -, -, hint, -⟩ := commandsWriteOnlyTheirFields i s t h
  by_cases hkept : t.integrator = s.integrator
  · exact hkept.trans h0
  · rcases hint hkept with rfl | ⟨st, rfl⟩
    · exact execClear_cases h ▸ rfl
    · exact absurd rfl (hi st)

theorem issueAll_keepsZeroIntegrator {cs : List Command} {s t : State} (h : issueAll cs s = .next t)
    (hcs : ∀ c ∈ cs, ∀ st, c.instr ≠ .readSamples st) (h0 : s.integrator = 0) : t.integrator = 0 := by
  induction cs generalizing s with
  | nil => exact next_inj.1 h ▸ h0
  | cons c cs ih =>
    obtain ⟨u, hu, ht⟩ := issueAll_cons_eq_next.1 h
    obtain ⟨hc, hcs⟩ := List.forall_mem_cons.1 hcs
    exact ih ht hcs (exec_keepsZeroIntegrator hu hc h0)

/-- Settles O54: the first sample is that of INTEGRATOR before any slot is added, which is 0 since CLEAR. -/
theorem firstSampleAfterClearIsZero : Obligations.FirstSampleAfterClearIsZero := by
  unfold Obligations.FirstSampleAfterClearIsZero
  intro st s u v cs hinv hu hcs hv h32 c hc hlen
  have hint : v.integrator = 0 := issueAll_keepsZeroIntegrator hv hcs (execClear_cases hu ▸ rfl)
  have hinv' := issueAll_inv (exec_inv hinv hu) hv
  obtain ⟨w, hw, -, hbytes, -⟩ := readSamplesWritesTheIntegratedSamples st v hinv' h32 hc hlen
  refine ⟨w, hw, ?_⟩
  have hfirst := hbytes 0 hc
  simp only [integratorBefore, hint, Nat.zero_mul, Nat.add_zero] at hfirst
  exact hfirst

end Sys2Proof.Machine
end

section
/-! The statements of 42_output_reader.md: the sum INTEGRATOR takes in (O50), the slots that move down (O51), and the
rejection beyond PCM_LEN (O52). -/

namespace Sys2Proof.Machine

/-! ### The integrator and the retired slots (R202, R203) -/

/-- Without leak the integrator before slot k has taken in the first k slots (R202). -/
theorem integratorBefore_of_noLeak {s : State} (h : s.cfg.leakShift = 0) (k : Nat) :
    integratorBefore s k = s.integrator + slotSum s.acc k := by
  induction k with
  | zero => simp [integratorBefore, slotSum]
  | succ k ih => rw [integratorBefore, if_pos h, ih, slotSum_succ, add_assoc]

theorem accRetire_zero (acc : AccFile) : accRetire acc 0 = acc := by simp [accRetire]

/-- A READ_SAMPLES that is not rejected completes, and c = 0 is no exception: INTEGRATOR has taken in c slots and c slots
are retired (R200). -/
theorem exec_readSamples_accepted {st : Bool} {s : State} (h32 : s.arg0.toNat < 2 ^ 32)
    (h : min s.arg0.toNat s.avail = 0 ∨
      s.arg1.toNat + (min s.arg0.toNat s.avail - 1) * strideOf st < s.pcmLen.toNat) :
    ∃ t, exec (.readSamples st) s = .next t ∧ t.integrator = integratorBefore s (min s.arg0.toNat s.avail) ∧
      t.acc = accRetire s.acc (min s.arg0.toNat s.avail) := by
  by_cases hc : min s.arg0.toNat s.avail = 0
  · refine ⟨_, execReadSamples_of_zero h32 hc, ?_, ?_⟩
    · rw [hc, integratorBefore, setResult_integrator]
    · rw [hc, accRetire_zero, setResult_acc]
  · exact ⟨_, execReadSamples_of_inRange h32 hc (h.resolve_left hc), rfl, rfl⟩

/-- Settles O50: the integrator READ_SAMPLES leaves is the one before slot c. -/
theorem integratorIsACumulativeSum : Obligations.IntegratorIsACumulativeSum := by
  unfold Obligations.IntegratorIsACumulativeSum
  intro st s hleak h32 c h
  obtain ⟨t, ht, hint, -⟩ := exec_readSamples_accepted h32 h
  exact ⟨t, ht, hint.trans (integratorBefore_of_noLeak hleak c)⟩

/-- Settles O51: a retired slot j is the old slot j + c, and a slot at or beyond DEPTH reads 0. -/
theorem readSamplesRetiresTheSlots : Obligations.ReadSamplesRetiresTheSlots := by
  unfold Obligations.ReadSamplesRetiresTheSlots
  intro st s hinv h32 c h
  obtain ⟨t, ht, -, hacc⟩ := exec_readSamples_accepted h32 h
  obtain ⟨hsorted, -⟩ := (accWf_iff _ _).1 hinv.accCanonical
  refine ⟨t, ht, fun j _ => ?_⟩
  rw [hacc, accRead_accRetire _ _ hsorted]
  split
  · rfl
  · rename_i hj
    exact accRead_eq_zero_of_depth_le hinv.accCanonical (Nat.le_of_not_lt hj)

/-- Settles O52: with c at least 1 the zero no-op does not apply, and the range check is the one left (R160, R201). -/
theorem readBeyondPcmLenIsRejected : Obligations.ReadBeyondPcmLenIsRejected := by
  unfold Obligations.ReadBeyondPcmLenIsRejected
  intro st s h32 c hc hp
  exact execReadSamples_of_outOfRange h32 (Nat.ne_of_gt hc) hp

end Sys2Proof.Machine
end

section
/-! The statements of 60_exceptions.md: a rejection changes ERR's bit and LAST_ERR alone (O27), and the interrupt output
is the level of the enabled ERR bits (O19). -/

namespace Sys2Proof.Machine

/-! ### Precise rejections (R224) -/

/-- A cause raises its own ERR bit and keeps the others. -/
theorem raiseErr_getLsbD (c : Cause) (err : BitVec 7) {k : Nat} (hk : k < 7) :
    (raiseErr c err).getLsbD k = (err.getLsbD k || decide (k = c.code - 1)) := by
  have hbit : (1#7 <<< (c.code - 1)).getLsbD k = decide (k = c.code - 1) := by
    rw [← BitVec.twoPow_eq, BitVec.getLsbD_twoPow]
    simpa [eq_comm] using fun heq : k = c.code - 1 => heq ▸ hk
  rw [raiseErr, BitVec.getLsbD_or, hbit]

/-- Settles O27: a rejection is its update of ERR and LAST_ERR, and a command that is not rejected keeps both. -/
theorem rejectionsArePrecise : Obligations.RejectionsArePrecise := by
  unfold Obligations.RejectionsArePrecise
  refine ⟨fun c s => ⟨rfl, fun k hk => raiseErr_getLsbD c s.err hk⟩, fun i s t h hchanged => ?_⟩
  rcases exec_rejects_or_keepsErr h with hrejected | ⟨herr, hlast⟩
  · exact hrejected
  · exact absurd hchanged (not_or.2 ⟨not_not.2 herr, not_not.2 hlast⟩)

/-! ### The interrupt output (R230) -/

/-- Every bit of ERR belongs to a cause (R220). -/
theorem exists_cause_of_lt {k : Nat} (hk : k < 7) : ∃ c : Cause, c.code - 1 = k := by
  interval_cases k
  exacts [⟨.illegal, rfl⟩, ⟨.uninit, rfl⟩, ⟨.rate, rfl⟩, ⟨.capacity, rfl⟩, ⟨.range, rfl⟩, ⟨.bus, rfl⟩, ⟨.operand, rfl⟩]

theorem ne_zero_iff_exists_causeBit (x : BitVec 7) : x ≠ 0 ↔ ∃ c : Cause, x.getLsbD (c.code - 1) = true := by
  constructor
  · contrapose!
    intro hbits
    refine BitVec.eq_of_getLsbD_eq fun k hk => ?_
    obtain ⟨c, rfl⟩ := exists_cause_of_lt hk
    simpa using hbits c
  · rintro ⟨c, hc⟩ rfl
    simp at hc

theorem irq_iff (s : State) :
    s.irq = true ↔ ∃ c : Cause, s.err.getLsbD (c.code - 1) = true ∧ s.irqEn.getLsbD (c.code - 1) = true := by
  simp only [State.irq, decide_eq_true_eq, ne_zero_iff_exists_causeBit, BitVec.getLsbD_and, Bool.and_eq_true]

theorem irq_of_clean {s : State} (h : s.Clean) : s.irq = false := by
  rw [State.Clean] at h
  simp [State.irq, h]

/-- Ones at every ERR bit of a STATUS write leave no ERR bit (R35). -/
theorem clearErr_all (err : BitVec 7) : clearErr 0x7F00 err = 0 := by
  have hall : errField 0x7F00 = BitVec.allOnes 7 := by decide
  rw [clearErr, hall, BitVec.not_allOnes]
  exact BitVec.and_zero

/-- Settles O19: a nonzero ERR & IRQ_EN has a cause's bit, and the STATUS write leaves ERR 0. -/
theorem interruptIsTheEnabledErrorLevel : Obligations.InterruptIsTheEnabledErrorLevel := by
  unfold Obligations.InterruptIsTheEnabledErrorLevel
  refine fun s => ⟨irq_iff s, fun t h => irq_of_clean ?_⟩
  obtain rfl := next_inj.1 h
  exact clearErr_all s.err

end Sys2Proof.Machine
end

section
/-! The statement of 70_reset_and_hazards.md: one step of asserted reset gives R261's table (O21). -/

namespace Sys2Proof.Machine

/-! ### Asserted reset (R260, R261) -/

section
variable {s : State}

/-- Reset lands between accesses: the later ones are still to come (log 15). -/
theorem step_reset {rest : List HostAccess} (hl : s.cfg.legal = true) (hp : s.pending = .reset :: rest) :
    step s = .next (resetBlock { s with pending := rest }) := step_of_pending hl hp

theorem irq_resetBlock : (resetBlock s).irq = false := irq_of_clean rfl

/-- READY, ERR and LAST_ERR are all 0 (R35). -/
theorem statusWord_resetBlock : statusWord (resetBlock s) = 0 := by simp [statusWord, State.resetOf]

theorem irqEnWord_resetBlock : irqEnWord (resetBlock s) = 0 := by simp [irqEnWord, State.resetOf]

/-- KIND 0, RATE_IDX 0xFF and TAPS 1: the Dirac selection without a rate index (R45). -/
theorem kselWord_resetBlock : kselWord (resetBlock s).ksel = 0x1FF00#64 := by
  simp [kselWord, kindField, rateIdxField, State.resetOf]

end

/-- Settles O21: the step is the reset of the block; STATUS, IRQ_EN and KSEL pack reset fields, and every other register
of the table is one field of the reset state. -/
theorem resetGivesTheTableOfResetValues : Obligations.ResetGivesTheTableOfResetValues := by
  unfold Obligations.ResetGivesTheTableOfResetValues
  intro s rest hl hp
  exact ⟨_, step_reset hl hp, rfl, rfl, rfl, irq_resetBlock, accRead_nil, fun _ => rfl,
    statusWord_resetBlock, irqEnWord_resetBlock, rfl, rfl, rfl, rfl, rfl, rfl, rfl, rfl,
    kselWord_resetBlock, rfl, rfl⟩

end Sys2Proof.Machine
end

section
/-! The statement about a block that the host asks nothing of: a step with no access pending keeps the state (O6). -/

namespace Sys2Proof.Machine

/-- Settles O6: a legal configuration is not refused, and there is no access to perform. -/
theorem blockWaitsForAccesses : Obligations.BlockWaitsForAccesses := by
  unfold Obligations.BlockWaitsForAccesses
  intro s hl hp
  exact step_of_no_pending hl hp

end Sys2Proof.Machine
end
